-- ==== Sys2Proof/Word.lean ====
section
/-! DEFINITION. The widths the spec gives values (rules R5, R6, R7): bytes, words, command words and
response words. Arithmetic on words stands in `Machine/WordOps.lean`. -/

namespace Sys2Proof

/-- A byte, 0 to 255 (rule R7). -/
abbrev Byte := BitVec 8

/-- A word, the cipher's 32-bit unsigned unit (rules R5, R7). -/
abbrev Word := BitVec 32

/-- A command word, `cmd[15:0]` (rules R6, R60). -/
abbrev Command := BitVec 16

/-- A response word, `rsp[39:0]` (rules R6, R66). -/
abbrev Response := BitVec 40

/-- The round-key table: a register file of 26 words (rules R5, R22). -/
abbrev Table := Vector Word 26

end Sys2Proof
end

