-- ==== Sys2Proof/Syntax.lean ====
section
/-! DEFINITION. The twelve commands of rule R63, one constructor per row of the opcode table. Operands of
ROTL, ROTR, ENC and DEC are not in the command word (rule R62): they are taken from the block buffer. -/

namespace Sys2Proof

/-- A command (rule R63). `imm8` is a data byte, used as it stands; `idx` is an element index (rule R62). -/
inductive Instr where
  /-- STAT: return KLEN, BLEN, SV (R160). -/
  | stat
  /-- KCLR: empty the key buffer (R108). -/
  | kclr
  /-- KPUSH imm8: append one key byte (R109). -/
  | kpush (imm8 : Byte)
  /-- EXPAND: derive the round-key table from the key buffer (R110). -/
  | expand
  /-- SRD idx: return round-key word S[idx] (R111). -/
  | srd (idx : Nat)
  /-- BCLR: empty the block buffer (R139). -/
  | bclr
  /-- BPUSH imm8: append one block byte (R140). -/
  | bpush (imm8 : Byte)
  /-- BRD idx: return block byte BLK[idx] (R141). -/
  | brd (idx : Nat)
  /-- ENC: encrypt the block in place (R142). -/
  | enc
  /-- DEC: decrypt the block in place (R143). -/
  | dec
  /-- ROTL: rotate word A of the block left by word B (R87). -/
  | rotl
  /-- ROTR: rotate word A of the block right by word B (R88). -/
  | rotr
  deriving DecidableEq, Repr

end Sys2Proof
end

