-- ==== Sys2Proof/WellFormed.lean ====
section
/-! DEFINITION. Which terms of `Instr` a command word can hold. The only operand that is a number of
unlimited size here is the index of format X, which the encoding limits to 0 .. 255 (rule R62; rule R69
calls an operand above 255 an assembly error). An index from 26 (or 8) to 255 is well formed: "a legal
encoding with a bad operand, not an illegal command" (R62). -/

namespace Sys2Proof

/-- An index fits the 8-bit operand field (rule R62). -/
def indexFits (idx : Nat) : Bool :=
  idx < 256

/-- The instruction has an encoding. -/
def Instr.wellFormed : Instr → Bool
  | .stat => true
  | .kclr => true
  | .kpush _ => true
  | .expand => true
  | .srd idx => indexFits idx
  | .bclr => true
  | .bpush _ => true
  | .brd idx => indexFits idx
  | .enc => true
  | .dec => true
  | .rotl => true
  | .rotr => true

end Sys2Proof
end

