-- ==== Sys2Proof/Decode.lean ====
section
/-! DEFINITION. The decoder of command words, total on all 65536 of them and rejecting by name (rules R60 to
R65), the opcode map as data (rule R63), and the encoder written from the same map. A command word is a
value on a parallel port and has no byte order (rule R41). -/

namespace Sys2Proof

/-- Why a word is illegal (rule R65 names the two kinds). -/
inductive IllegalWord where
  /-- One of the 244 opcodes rule R63 does not use, with any `arg`. -/
  | unusedOpcode (op : Byte)
  /-- A format Z opcode whose `arg` is not 0x00. -/
  | nonzeroArg (op : Byte) (arg : Byte)
  deriving DecidableEq, Repr

/-- The three formats (rule R61). -/
inductive Format where
  /-- `arg` unused and 0x00. -/
  | z
  /-- `arg` is a data byte `imm8`. -/
  | b
  /-- `arg` is an element index `idx`. -/
  | x
  deriving DecidableEq, Repr

/-- The twelve mnemonics (rule R63). -/
inductive Mnemonic where
  | STAT | KCLR | KPUSH | EXPAND | SRD | BCLR | BPUSH | BRD | ENC | DEC | ROTL | ROTR
  deriving DecidableEq, Repr

/-- Field `op`, bits 15:8 (rule R60). -/
def opField (w : Command) : Byte :=
  w.extractLsb' 8 8

/-- Field `arg`, bits 7:0 (rule R60). -/
def argField (w : Command) : Byte :=
  w.extractLsb' 0 8

/-- Format Z: "`arg` must be 0x00; any other value makes the word illegal" (rule R61). -/
def decodeZ (i : Instr) (w : Command) : Except IllegalWord Instr :=
  if argField w = 0 then .ok i else .error (.nonzeroArg (opField w) (argField w))

/-- The decoder (rules R60 to R65). -/
def decode (w : Command) : Except IllegalWord Instr :=
  match (opField w).toNat with
  | 0x01 => decodeZ .stat w
  | 0x10 => decodeZ .kclr w
  | 0x11 => .ok (.kpush (argField w))
  | 0x12 => decodeZ .expand w
  | 0x13 => .ok (.srd (argField w).toNat)
  | 0x20 => decodeZ .bclr w
  | 0x21 => .ok (.bpush (argField w))
  | 0x22 => .ok (.brd (argField w).toNat)
  | 0x30 => decodeZ .enc w
  | 0x31 => decodeZ .dec w
  | 0x40 => decodeZ .rotl w
  | 0x41 => decodeZ .rotr w
  | _ => .error (.unusedOpcode (opField w))

/-- One row of the opcode map: a word selects it exactly when `(w and mask) = pattern` (rule R63; the
spec calls `pattern` "match"). -/
structure OpcodeRow where
  mnemonic : Mnemonic
  format : Format
  pattern : Command
  mask : Command
  deriving DecidableEq, Repr

/-- The opcode map of rule R63, row by row. -/
def opcodeTable : List OpcodeRow :=
  [ ⟨.STAT, .z, 0x0100, 0xFFFF⟩,
    ⟨.KCLR, .z, 0x1000, 0xFFFF⟩,
    ⟨.KPUSH, .b, 0x1100, 0xFF00⟩,
    ⟨.EXPAND, .z, 0x1200, 0xFFFF⟩,
    ⟨.SRD, .x, 0x1300, 0xFF00⟩,
    ⟨.BCLR, .z, 0x2000, 0xFFFF⟩,
    ⟨.BPUSH, .b, 0x2100, 0xFF00⟩,
    ⟨.BRD, .x, 0x2200, 0xFF00⟩,
    ⟨.ENC, .z, 0x3000, 0xFFFF⟩,
    ⟨.DEC, .z, 0x3100, 0xFFFF⟩,
    ⟨.ROTL, .z, 0x4000, 0xFFFF⟩,
    ⟨.ROTR, .z, 0x4100, 0xFFFF⟩ ]

/-- The row is selected by the word (rule R63). -/
def OpcodeRow.selects (r : OpcodeRow) (w : Command) : Bool :=
  w &&& r.mask == r.pattern

/-- The instruction of a mnemonic with the operand `n` (ignored by format Z). -/
def Mnemonic.instr (m : Mnemonic) (n : Nat) : Instr :=
  match m with
  | .STAT => .stat
  | .KCLR => .kclr
  | .KPUSH => .kpush (BitVec.ofNat 8 n)
  | .EXPAND => .expand
  | .SRD => .srd n
  | .BCLR => .bclr
  | .BPUSH => .bpush (BitVec.ofNat 8 n)
  | .BRD => .brd n
  | .ENC => .enc
  | .DEC => .dec
  | .ROTL => .rotl
  | .ROTR => .rotr

/-- The mnemonic of an instruction (rule R63). -/
def Instr.mnemonic (i : Instr) : Mnemonic :=
  match i with
  | .stat => .STAT
  | .kclr => .KCLR
  | .kpush _ => .KPUSH
  | .expand => .EXPAND
  | .srd _ => .SRD
  | .bclr => .BCLR
  | .bpush _ => .BPUSH
  | .brd _ => .BRD
  | .enc => .ENC
  | .dec => .DEC
  | .rotl => .ROTL
  | .rotr => .ROTR

/-- The format of a mnemonic (rule R61). -/
def Mnemonic.format (m : Mnemonic) : Format :=
  match m with
  | .STAT | .KCLR | .EXPAND | .BCLR | .ENC | .DEC | .ROTL | .ROTR => .z
  | .KPUSH | .BPUSH => .b
  | .SRD | .BRD => .x

/-- The command word of an instruction: opcode in bits 15:8, operand in bits 7:0 (rules R60, R63). -/
def encode (i : Instr) : Command :=
  match i with
  | .stat => 0x0100#16
  | .kclr => 0x1000#16
  | .kpush imm8 => 0x11#8 ++ imm8
  | .expand => 0x1200#16
  | .srd idx => 0x13#8 ++ BitVec.ofNat 8 idx
  | .bclr => 0x2000#16
  | .bpush imm8 => 0x21#8 ++ imm8
  | .brd idx => 0x22#8 ++ BitVec.ofNat 8 idx
  | .enc => 0x3000#16
  | .dec => 0x3100#16
  | .rotl => 0x4000#16
  | .rotr => 0x4100#16

/-- The bits of a command numbered as the opcode table numbers them: one 16-bit word, bit 0 the least
significant, bits above `nbits` zero. No command is longer than 16 bits (rule R68). -/
def decodeTableWord (nbits w : Nat) : Option Instr :=
  if nbits ≤ 16 then (decode (BitVec.ofNat 16 (w % 2 ^ nbits))).toOption else none

end Sys2Proof
end

