-- ==== Sys2Proof/Config.lean ====
section
/-! DEFINITION. The one open parameter of the engine, KEY_BYTES_MAX (rule R6). It is a "model argument",
so it is a value the state carries and no step changes, and every statement about a state holds for
every capacity. Everything else is fixed by rule R5 ("None of these is configurable"). -/

namespace Sys2Proof

/-- The parameters of one engine instance (rule R6). -/
structure Config where
  /-- KEY_BYTES_MAX, the capacity of the key buffer in bytes. -/
  keyBytesMax : Nat
  deriving DecidableEq, Repr

/-- The default instance (rule R6: "default 104"). -/
def Config.standard : Config where
  keyBytesMax := 104

/-- KEY_WORDS_MAX, the capacity of the working array L in words (rule R6). -/
def Config.keyWordsMax (c : Config) : Nat :=
  c.keyBytesMax / 4

/-- The range rule R6 allows: 4 <= KEY_BYTES_MAX <= 65534. -/
abbrev Config.Legal (c : Config) : Prop :=
  4 ≤ c.keyBytesMax ∧ c.keyBytesMax ≤ 65534

end Sys2Proof
end

