-- ==== Sys2Proof/Machine/State.lean ====
section
/-! DEFINITION. The machine's state: every row of rule R20's table, the response port of rule R46, the host's
pending moves (rules R14, R17) and the instance's parameters (rule R6). Plain data throughout. -/

namespace Sys2Proof.Machine

/-- What the host can do next (rules R14, R17 item 8, R46, R190): transfer a command word, take the
response that waits, or pulse the reset input. The engine never chooses its input. -/
inductive HostMove where
  /-- `cmd_valid` with a command word, transferred when the engine is ready (R46). -/
  | command (w : Command)
  /-- `rsp_ready`: the host takes the waiting response (R46). -/
  | take
  /-- `rst` active on a rising clock edge (R190). -/
  | reset
  deriving DecidableEq, Repr

/-- A byte buffer as a list of cells, addresses strictly rising, no cell equal to what an unlisted
address reads as (`Memory.wf` in `Machine/Ops.lean`). KEY and BLK are two such buffers (rule R40). -/
abbrev Memory := List Host.Cell

/-- Faults. There are none: "The engine never traps, hangs or produces an undefined result" (R16), and
"No other synchronous exception exists" (R176). An error is a response, that is a NEXT state. -/
inductive Fault where
  deriving DecidableEq, Repr

/-- Refusals of the model, not of the engine (a word the engine refuses gets the IllegalCommand response,
which is a next state). -/
inductive Refusal where
  /-- An arm of `exec` that has no meaning yet, by its mnemonic. Raised by `exec` alone; safe. No arm
  uses it. -/
  | notModelled (mnemonic : String)
  deriving DecidableEq, Repr

/-- The engine and its two ports. Field names are the spec's (rule R20). -/
structure State where
  /-- KEY_BYTES_MAX of this instance (R6): constant, no step changes it. -/
  cfg : Config
  /-- KEY, the key bytes in the order pushed (R20, R40). -/
  KEY : Memory
  /-- KLEN, 0 .. KEY_BYTES_MAX + 1, the top value meaning "more than the buffer holds" (R20, R27). -/
  KLEN : Nat
  /-- S, the round-key table (R22). -/
  S : Table
  /-- SV, set when S holds a derived table (R22). -/
  SV : Bool
  /-- BLK, the 8 block bytes (R20, R40). -/
  BLK : Memory
  /-- BLEN, 0 .. 9, where 9 means "more than 8" (R20, R27). -/
  BLEN : Nat
  /-- L, the working array of KEY_WORDS_MAX key words, transient (R24). -/
  L : List Word
  /-- c, the number of entries of L in use, transient (R24). -/
  c : Nat
  /-- A, working register, transient (R21, R25). -/
  A : Word
  /-- B, working register, transient (R21, R25). -/
  B : Word
  /-- i, the table or loop index, 0 .. 25, transient (R26). -/
  i : Fin 26
  /-- j, the key-word index, transient (R26). -/
  j : Nat
  /-- k, the mix counter, transient (R26). -/
  k : Nat
  /-- The response port: `some r` when `rsp_valid` is 1 and `rsp` is r (R46, R66). -/
  rsp : Option Response
  /-- The host's next moves, in order (R14): the outside world's, not the engine's. -/
  host : List HostMove
  /-- The responses the host has taken, oldest first: the outside world's, not the engine's (R47). -/
  taken : List Response
  deriving DecidableEq, Repr

/-- What a step or a command answers. -/
abbrev Result := Host.Outcome State Fault Refusal

/-- Right after reset (rules R30, R190): KLEN = 0, BLEN = 0, SV = 0 and no response waiting. Storage the
spec leaves unspecified is zero, which rule R31 allows (assumption 1). The host has made no move yet. -/
def State.reset : State where
  cfg := Config.standard
  KEY := []
  KLEN := 0
  S := Vector.replicate 26 0#32
  SV := false
  BLK := []
  BLEN := 0
  L := List.replicate 26 0#32
  c := 0
  A := 0#32
  B := 0#32
  i := 0
  j := 0
  k := 0
  rsp := none
  host := []
  taken := []

end Sys2Proof.Machine
end

