-- ==== Sys2Proof/Machine/Ops.lean ====
section
/-! DEFINITION. The named operations every command is written with: one byte of a buffer, one big-endian
word of a buffer (rules R9, R41), the two ways a command ends (`respond OK` and `raise`, rules R9, R66,
R170). An error is this machine's exception. Rule R178: it "saves nothing, changes no mode, mask or
stack, and transfers control nowhere"; rule R180: there is no return from it. So `raise` is the whole of
taking one, and no return operation exists. -/

namespace Sys2Proof.Machine

/-- What a byte no command has written reads as. Rule R30 leaves it unspecified and R31 shows that no
command can observe it (assumption 1). -/
def unwrittenByte (_a : Nat) : Byte :=
  0#8

/-- `buf[a]` (rule R9). -/
def Memory.read (m : Memory) (a : Nat) : Byte :=
  match m with
  | [] => unwrittenByte a
  | (k, v) :: rest => if k = a then v else Memory.read rest a

/-- `buf[a] <- v` (rule R9), keeping the canonical form. -/
def Memory.write (m : Memory) (a : Nat) (v : Byte) : Memory :=
  match m with
  | [] => if v = unwrittenByte a then [] else [(a, v)]
  | (k, x) :: rest =>
    if a < k then
      if v = unwrittenByte a then (k, x) :: rest else (a, v) :: (k, x) :: rest
    else if a = k then
      if v = unwrittenByte a then rest else (a, v) :: rest
    else (k, x) :: Memory.write rest a v

/-- The canonical form: addresses strictly rising, no cell that says what an unlisted address reads as. -/
abbrev Memory.wf (m : Memory) : Prop :=
  m.Pairwise (fun p q => p.1 < q.1) ∧ ∀ cell ∈ m, cell.2 ≠ unwrittenByte cell.1

/-- Every listed address is below `n`: the buffer has `n` bytes (rule R40). -/
abbrev Memory.within (m : Memory) (n : Nat) : Prop :=
  ∀ cell ∈ m, cell.1 < n

/-- `be32`, four bytes to a word, the lowest index most significant (rule R41). -/
def be32 (b0 b1 b2 b3 : Byte) : Word :=
  b0 ++ b1 ++ b2 ++ b3

/-- `bytes4`, a word to four bytes, the most significant first (rule R41). -/
def bytes4 (v : Word) : Byte × Byte × Byte × Byte :=
  (v.extractLsb' 24 8, v.extractLsb' 16 8, v.extractLsb' 8 8, v.extractLsb' 0 8)

/-- `MemRead(buf, a, 4)` (rule R9). -/
def Memory.read32 (m : Memory) (a : Nat) : Word :=
  be32 (m.read a) (m.read (a + 1)) (m.read (a + 2)) (m.read (a + 3))

/-- `MemWrite(buf, a, 4, v)` (rule R9). -/
def Memory.write32 (m : Memory) (a : Nat) (v : Word) : Memory :=
  let b := bytes4 v
  (((m.write a b.1).write (a + 1) b.2.1).write (a + 2) b.2.2.1).write (a + 3) b.2.2.2

/-- The error kinds the engine can raise (rules R66, R171 to R174). -/
inductive ErrorKind where
  /-- No key word after partitioning (R171). -/
  | invalidKey
  /-- A wrong block length, a missing table or an index out of range (R172). -/
  | invalidInput
  /-- A command word that matches no row (R173). -/
  | illegalCommand
  /-- More key bytes pushed than the buffer holds (R174). -/
  | keyOverflow
  deriving DecidableEq, Repr

/-- The code of an OK response (rule R66). -/
def okCode : Byte :=
  0x00#8

/-- The code of an error response (rule R66). -/
def errorCode (e : ErrorKind) : Byte :=
  match e with
  | .invalidKey => 0x01#8
  | .invalidInput => 0x02#8
  | .illegalCommand => 0x03#8
  | .keyOverflow => 0x04#8

/-- The response word: `code` in bits 39:32, `data` in bits 31:0 (rule R66). -/
def response (code : Byte) (data : Word) : Response :=
  code ++ data

/-- Field `code`, bits 39:32 of a response (rule R66). -/
def responseCode (r : Response) : Byte :=
  r.extractLsb' 32 8

/-- Field `data`, bits 31:0 of a response (rule R66). -/
def responseData (r : Response) : Word :=
  r.extractLsb' 0 32

/-- `respond OK(d)`: the command ends with code OK and data `d` (rule R9). -/
def respondOK (d : Word) (s : State) : Result :=
  .next { s with rsp := some (response okCode d) }

/-- `raise E(info)`: the response carries the error's code and its info word, and no state is changed
(rules R9, R170). -/
def raise (e : ErrorKind) (info : Word) (s : State) : Result :=
  .next { s with rsp := some (response (errorCode e) info) }

end Sys2Proof.Machine
end

