-- ==== Sys2Proof/Machine/Operands.lean ====
section
/-! DEFINITION. Where the commands find their operands (rules R42, R43, R44, R62): the index operand of
format X with its range, the two words of the block, the key as bytes and as words. The immediate byte
of format B is "used as it stands" (R62) and needs no operation. -/

namespace Sys2Proof.Machine

/-- SRD accepts indices 0 .. 25 (rules R62, R111). -/
def tableIndexBad (idx : Nat) : Bool :=
  26 ≤ idx

/-- BRD accepts indices 0 .. min(BLEN, 8) - 1 (rules R62, R141). -/
def blockIndexBad (idx blen : Nat) : Bool :=
  8 ≤ idx || blen ≤ idx

/-- `S[idx]` for an index operand; an index that `tableIndexBad` turns away is never read. -/
def tableRead (t : Table) (idx : Nat) : Word :=
  t[idx]?.getD 0#32

/-- `v[4:0]`, the low five bits of a word as a rotate amount (rule R83). -/
def low5 (v : Word) : Nat :=
  (v.extractLsb' 0 5).toNat

/-- Word A of the block, `be32(BLK[0 .. 3])` (rule R43). -/
def blockA (s : State) : Word :=
  s.BLK.read32 0

/-- Word B of the block, `be32(BLK[4 .. 7])` (rule R43). -/
def blockB (s : State) : Word :=
  s.BLK.read32 4

/-- `BLK[0 .. 3] <- bytes4(A)` (rules R87, R88). -/
def storeA (m : Memory) (a : Word) : Memory :=
  m.write32 0 a

/-- `BLK[0 .. 3] <- bytes4(A); BLK[4 .. 7] <- bytes4(B)` (rules R43, R142, R143). -/
def storeAB (m : Memory) (a b : Word) : Memory :=
  (m.write32 0 a).write32 4 b

/-- The key as bytes: `KEY[0 .. n-1]`, in the order pushed (rule R109). -/
def keyBytes (m : Memory) (n : Nat) : List Byte :=
  (List.range n).map m.read

/-- The key partition: one big-endian word per whole 4-byte chunk, in order; the bytes of a trailing
partial chunk are ignored (rules R42, R100; `90_conflicts.md` C1). -/
def keyWords (key : List Byte) : List Word :=
  match key with
  | b0 :: b1 :: b2 :: b3 :: rest => be32 b0 b1 b2 b3 :: keyWords rest
  | _ => []

end Sys2Proof.Machine
end

