-- ==== Sys2Proof/Machine/Flags.lean ====
section
/-! DEFINITION. The status the engine keeps: "There are no condition codes" (rule R27). The flag SV and the two
length counters are all of it. Here stand how a push moves a counter (R109, R140), the failed-
precondition masks of InvalidInput (R172) and the two words made from the counters (R110, R160). -/

namespace Sys2Proof.Machine

/-- KLEN after a KPUSH: one more, or the overflow value KEY_BYTES_MAX + 1 (rules R27, R109). -/
def klenPushed (max klen : Nat) : Nat :=
  if klen < max then klen + 1 else max + 1

/-- BLEN after a BPUSH: one more, or the overflow value 9 (rules R27, R140). -/
def blenPushed (blen : Nat) : Nat :=
  if blen < 8 then blen + 1 else 9

/-- Info bit 0: the block buffer does not hold exactly 8 bytes (rule R172). -/
def blockLengthBit (blen : Nat) : Nat :=
  if blen = 8 then 0 else 1

/-- Info bit 1: no round-key table is present (rule R172). -/
def noTableBit (sv : Bool) : Nat :=
  if sv then 0 else 2

/-- Info bit 2: the index operand is out of range (rule R172). -/
def indexBit (bad : Bool) : Nat :=
  if bad then 4 else 0

/-- The mask `m` of ENC and DEC (rules R142, R143). -/
def cipherMask (s : State) : Nat :=
  blockLengthBit s.BLEN + noTableBit s.SV

/-- The mask `m` of ROTL and ROTR (rules R87, R88). -/
def rotateMask (s : State) : Nat :=
  blockLengthBit s.BLEN

/-- The mask `m` of SRD (rule R111). -/
def tableReadMask (s : State) (idx : Nat) : Nat :=
  noTableBit s.SV + indexBit (tableIndexBad idx)

/-- The mask of BRD (rule R141). -/
def blockReadMask (s : State) (idx : Nat) : Nat :=
  indexBit (blockIndexBad idx s.BLEN)

/-- The status word `SV * 2^24 + BLEN * 2^16 + KLEN` (rule R160). -/
def statusWord (s : State) : Word :=
  BitVec.ofNat 32 (s.SV.toNat * 2 ^ 24 + s.BLEN * 2 ^ 16 + s.KLEN)

/-- EXPAND's data word `(KLEN mod 4) * 2^16 + c` (rule R110). -/
def expandWord (klen : Nat) : Word :=
  BitVec.ofNat 32 (klen % 4 * 2 ^ 16 + klen / 4)

end Sys2Proof.Machine
end

