-- ==== Sys2Proof/Machine/WordOps.lean ====
section
/-! DEFINITION. Component WordOps (rules R80 to R89): the arithmetic of words, the two rotates for every
mathematical integer amount, and the commands ROTL and ROTR. -/

namespace Sys2Proof.Machine

/-- `add32(x, y) = (x + y) mod 2^32` (rule R80). -/
def add32 (x y : Word) : Word :=
  x + y

/-- `sub32(x, y) = (x - y) mod 2^32` (rule R81). -/
def sub32 (x y : Word) : Word :=
  x - y

/-- `xor32(x, y)`, bitwise exclusive-or (rule R82). -/
def xor32 (x y : Word) : Word :=
  x ^^^ y

/-- `rotamt(s) = s mod 32`, not negative, for any integer s (rule R83; the floored modulus of R7). -/
def rotamt (s : Int) : Nat :=
  (s % 32).toNat

/-- `rotl(x, s)` (rule R84). The amount 0 is apart, so no shift by 32 is ever made (R84, U1). -/
def rotl (x : Word) (s : Int) : Word :=
  let n := rotamt s
  if n = 0 then x else (x <<< n) ||| (x >>> (32 - n))

/-- `rotr(x, s)` (rule R85). -/
def rotr (x : Word) (s : Int) : Word :=
  let n := rotamt s
  if n = 0 then x else (x >>> n) ||| (x <<< (32 - n))

/-- ROTL (rule R87): A is rotated left by B[4:0]; BLK[4 .. 7], BLEN and SV are not written. -/
def execRotl (s : State) : Result :=
  let m := rotateMask s
  if m ≠ 0 then raise .invalidInput (BitVec.ofNat 32 m) s
  else
    let b := blockB s
    let a := rotl (blockA s) (low5 b)
    respondOK a { s with A := a, B := b, BLK := storeA s.BLK a }

/-- ROTR (rule R88): as ROTL, to the right. -/
def execRotr (s : State) : Result :=
  let m := rotateMask s
  if m ≠ 0 then raise .invalidInput (BitVec.ofNat 32 m) s
  else
    let b := blockB s
    let a := rotr (blockA s) (low5 b)
    respondOK a { s with A := a, B := b, BLK := storeA s.BLK a }

end Sys2Proof.Machine
end

