-- ==== Sys2Proof/Machine/KeySchedule.lean ====
section
/-! DEFINITION. Component KeySchedule (rules R100 to R111): seeding, the mix loop, `derive`, and the commands
KCLR, KPUSH, EXPAND and SRD. -/

namespace Sys2Proof.Machine

/-- `seed(i) = (0xB7E15163 + i * 0x9E3779B9) mod 2^32` (rule R102). -/
def seed (i : Nat) : Word :=
  BitVec.ofNat 32 (0xB7E15163 + i * 0x9E3779B9)

/-- Step 2: `S[i] <- seed(i)` for all 26 entries (rule R102). -/
def seedTable : Table :=
  Vector.ofFn fun i => seed i.val

/-- What a mix iteration reads and writes (rule R103); L is the list of the c key words in use. -/
structure Mix where
  S : Table
  L : List Word
  A : Word
  B : Word
  i : Fin 26
  j : Nat
  deriving DecidableEq, Repr

/-- The start of the mix loop: A = 0, B = 0, i = 0, j = 0 on the seeded S (rules R104, R105). -/
def mixStart (L : List Word) : Mix where
  S := seedTable
  L := L
  A := 0#32
  B := 0#32
  i := 0
  j := 0

/-- One mix iteration, the lines of rule R103 in their order: the second assignment and its rotate
amount use the new A and the old B. Addition on `Fin 26` is "mod 26". -/
def mixstep (m : Mix) : Mix :=
  let a := rotl (add32 (add32 (m.S.get m.i) m.A) m.B) 3
  let b := rotl (add32 (add32 (m.L.getD m.j 0#32) a) m.B) (low5 (add32 a m.B))
  { S := m.S.set m.i a
    L := m.L.set m.j b
    A := a
    B := b
    i := m.i + 1
    j := (m.j + 1) % m.L.length }

/-- The first `n` mix iterations. -/
def mixTimes (n : Nat) (m : Mix) : Mix :=
  match n with
  | 0 => m
  | n + 1 => mixstep (mixTimes n m)

/-- The number of mix iterations, 78 for every key (rules R5, R104; `90_conflicts.md` C2). -/
def mixCount : Nat :=
  78

/-- Steps 2 and 3 on the key words (rules R102 to R104). Irreducible, so that no comparison of two states
runs the loop; `schedule_eq` in `Laws/` says what it is. -/
@[irreducible] def schedule (L : List Word) : Mix :=
  mixTimes mixCount (mixStart L)

/-- `derive(key)` (rule R105); `none` is the failure InvalidKey of rule R107. -/
def derive (key : List Byte) : Option Table :=
  let L := keyWords key
  if L.length = 0 then none else some (schedule L).S

/-- KCLR (rule R108): the bytes of KEY are not erased; S and SV are not changed. -/
def execKclr (s : State) : Result :=
  respondOK 0#32 { s with KLEN := 0 }

/-- KPUSH imm8 (rule R109). -/
def execKpush (imm8 : Byte) (s : State) : Result :=
  let klen := klenPushed s.cfg.keyBytesMax s.KLEN
  let key := if s.KLEN < s.cfg.keyBytesMax then s.KEY.write s.KLEN imm8 else s.KEY
  respondOK (BitVec.ofNat 32 klen) { s with KEY := key, KLEN := klen }

/-- EXPAND (rule R110). KEY and KLEN are not changed. L, c, A, B, i, j, k are left as the loop leaves them
(rules R24, R25, R26; assumption 3). -/
def execExpand (s : State) : Result :=
  let max := s.cfg.keyBytesMax
  let c := s.KLEN / 4
  if s.KLEN = max + 1 then raise .keyOverflow (BitVec.ofNat 32 max) s
  else if c = 0 then raise .invalidKey (BitVec.ofNat 32 s.KLEN) s
  else
    let m := schedule (keyWords (keyBytes s.KEY s.KLEN))
    respondOK (expandWord s.KLEN)
      { s with S := m.S, SV := true, L := m.L ++ s.L.drop c, c := c, A := m.A, B := m.B,
               i := m.i, j := m.j, k := mixCount - 1 }

/-- SRD idx (rule R111): no state changes. -/
def execSrd (idx : Nat) (s : State) : Result :=
  let m := tableReadMask s idx
  if m ≠ 0 then raise .invalidInput (BitVec.ofNat 32 m) s
  else respondOK (tableRead s.S idx) s

end Sys2Proof.Machine
end

