-- ==== Sys2Proof/Machine/BlockCipher.lean ====
section
/-! DEFINITION. Component BlockCipher (rules R130 to R143): encryption and decryption of a pair of words with
any table, and the commands BCLR, BPUSH, BRD, ENC and DEC. -/

namespace Sys2Proof.Machine

/-- The values of the cipher's loop index, in the order of encryption (rules R5, R26). -/
def loopIndices : List (Fin 26) :=
  [1, 3, 5, 7, 9, 11]

/-- One loop iteration of encryption (rule R131): A is updated with the old B, then B with the new A. -/
def encround (S : Table) (i : Fin 26) (A B : Word) : Word × Word :=
  let a := add32 (rotl (xor32 A B) (low5 B)) (S.get i)
  let b := add32 (rotl (xor32 a B) (low5 a)) (S.get (i + 1))
  (a, b)

/-- The loop of encryption over a list of indices (rule R132). -/
def encLoop (S : Table) (is : List (Fin 26)) (A B : Word) : Word × Word :=
  match is with
  | [] => (A, B)
  | i :: rest =>
    let p := encround S i A B
    encLoop S rest p.1 p.2

/-- `encrypt(S, A, B)` (rule R132): whitening, then the loop with i = 1, 3, 5, 7, 9, 11.
Irreducible, as `schedule` is. -/
@[irreducible] def encrypt (S : Table) (A B : Word) : Word × Word :=
  encLoop S loopIndices (add32 A (S.get 0)) (add32 B (S.get 1))

/-- One loop iteration of decryption (rule R133): B is restored with the old A, then A with the new B. -/
def decround (S : Table) (i : Fin 26) (A B : Word) : Word × Word :=
  let b := xor32 (rotr (sub32 B (S.get (i + 1))) (low5 A)) A
  let a := xor32 (rotr (sub32 A (S.get i)) (low5 b)) b
  (a, b)

/-- The loop of decryption over a list of indices (rule R134). -/
def decLoop (S : Table) (is : List (Fin 26)) (A B : Word) : Word × Word :=
  match is with
  | [] => (A, B)
  | i :: rest =>
    let p := decround S i A B
    decLoop S rest p.1 p.2

/-- `decrypt(S, A, B)` (rule R134): the loop with i = 11, 9, 7, 5, 3, 1, then the final subtractions.
Irreducible, as `schedule` is. -/
@[irreducible] def decrypt (S : Table) (A B : Word) : Word × Word :=
  let p := decLoop S loopIndices.reverse A B
  (sub32 p.1 (S.get 0), sub32 p.2 (S.get 1))

/-- BCLR (rule R139): the bytes of BLK are not erased. -/
def execBclr (s : State) : Result :=
  respondOK 0#32 { s with BLEN := 0 }

/-- BPUSH imm8 (rule R140). -/
def execBpush (imm8 : Byte) (s : State) : Result :=
  let blen := blenPushed s.BLEN
  let blk := if s.BLEN < 8 then s.BLK.write s.BLEN imm8 else s.BLK
  respondOK (BitVec.ofNat 32 blen) { s with BLK := blk, BLEN := blen }

/-- BRD idx (rule R141): no state changes. -/
def execBrd (idx : Nat) (s : State) : Result :=
  let m := blockReadMask s idx
  if m ≠ 0 then raise .invalidInput (BitVec.ofNat 32 m) s
  else respondOK ((s.BLK.read idx).setWidth 32) s

/-- ENC (rule R142): encrypt the block in place; BLEN, S and SV are not changed. The index i is left at
the last value it takes (R26), j and k are kept (assumption 3). -/
def execEnc (s : State) : Result :=
  let m := cipherMask s
  if m ≠ 0 then raise .invalidInput (BitVec.ofNat 32 m) s
  else
    let p := encrypt s.S (blockA s) (blockB s)
    respondOK 0#32 { s with A := p.1, B := p.2, i := 11, BLK := storeAB s.BLK p.1 p.2 }

/-- DEC (rule R143): decrypt the block in place; i, j and k as in ENC (assumption 3). -/
def execDec (s : State) : Result :=
  let m := cipherMask s
  if m ≠ 0 then raise .invalidInput (BitVec.ofNat 32 m) s
  else
    let p := decrypt s.S (blockA s) (blockB s)
    respondOK 0#32 { s with A := p.1, B := p.2, i := 1, BLK := storeAB s.BLK p.1 p.2 }

end Sys2Proof.Machine
end

