-- ==== Sys2Proof/Machine/Status.lean ====
section
/-! DEFINITION. The status command STAT (rule R160). -/

namespace Sys2Proof.Machine

/-- STAT (rule R160): return the status word; no state changes. -/
def execStat (s : State) : Result :=
  respondOK (statusWord s) s

end Sys2Proof.Machine
end

