-- ==== Sys2Proof/Machine/Dispatch.lean ====
section
/-! DEFINITION. One arm per command of the opcode table, each one call of its meaning. -/

namespace Sys2Proof.Machine

def exec (i : Instr) (s : State) : Host.Outcome State Fault Refusal :=
  match i with
  | .stat => Sys2Proof.Machine.execStat s
  | .kclr => Sys2Proof.Machine.execKclr s
  | .kpush imm8 => Sys2Proof.Machine.execKpush imm8 s
  | .expand => Sys2Proof.Machine.execExpand s
  | .srd idx => Sys2Proof.Machine.execSrd idx s
  | .bclr => Sys2Proof.Machine.execBclr s
  | .bpush imm8 => Sys2Proof.Machine.execBpush imm8 s
  | .brd idx => Sys2Proof.Machine.execBrd idx s
  | .enc => Sys2Proof.Machine.execEnc s
  | .dec => Sys2Proof.Machine.execDec s
  | .rotl => Sys2Proof.Machine.execRotl s
  | .rotr => Sys2Proof.Machine.execRotr s

end Sys2Proof.Machine
end

