-- ==== Sys2Proof/Machine/Port.lean ====
section
/-! DEFINITION. The host interface at transaction level (rules R46, R47, R190): the three things a host move
does. The clock and the cycle-by-cycle handshake "appear in no rule" (R46); the outputs `cmd_ready` and
`rsp_valid` are read off the state. -/

namespace Sys2Proof.Machine

/-- `cmd_ready`: no response is waiting to be taken (rule R46). Between steps no command is in execution. -/
def cmdReady (s : State) : Bool :=
  s.rsp.isNone

/-- `rsp_valid` (rule R46). -/
def rspValid (s : State) : Bool :=
  s.rsp.isSome

/-- The response that waits, if any, is transferred to the host (rule R46). -/
def takeResponse (s : State) : State :=
  { s with rsp := none, taken := s.taken ++ s.rsp.toList }

/-- A pulse of `rst` (rules R30, R190): KLEN, BLEN and SV are cleared and a waiting response is discarded.
No storage is erased (R191). -/
def resetEngine (s : State) : State :=
  { s with KLEN := 0, BLEN := 0, SV := false, rsp := none }

/-- The engine executes a command word (rules R64, R65, R173): the command of its row, or IllegalCommand
with the word as info. -/
def runWord (w : Command) (s : State) : Result :=
  match decode w with
  | .ok i => exec i s
  | .error _ => raise .illegalCommand (w.setWidth 32) s

/-- A command transfer: a response still waiting is taken first, since `cmd_ready` is 1 only then (rule
R46; assumption 5), and the command then runs to completion (R47). -/
def acceptCommand (w : Command) (s : State) : Result :=
  runWord w (takeResponse s)

/-- The host offers `w` before its other moves. -/
def placeCommand (w : Command) (s : State) : State :=
  { s with host := .command w :: s.host }

end Sys2Proof.Machine
end

