-- ==== Sys2Proof/Machine/Step.lean ====
section
/-! DEFINITION. One step is one move of the host (rules R14, R47): commands are atomic and run in the order
the host sends them. With no move pending the engine is idle and keeps all its state (R186). There is no
program counter and no instruction fetch (R26, R50). -/

namespace Sys2Proof.Machine

/-- One step of the machine. -/
def step (s : State) : Host.Outcome State Fault Refusal :=
  match s.host with
  | [] => .next s
  | .command w :: rest => acceptCommand w { s with host := rest }
  | .take :: rest => .next (takeResponse { s with host := rest })
  | .reset :: rest => .next (resetEngine { s with host := rest })

/-- `s` with the command word `w` (its low `nbits` bits) as the host's very next move, so that the next
step transfers and runs exactly it (assumption 4). -/
def State.withFetchWord (s : State) (nbits w : Nat) : State :=
  placeCommand (BitVec.ofNat 16 (w % 2 ^ nbits)) s

end Sys2Proof.Machine
end

