-- ==== Sys2Proof/Machine/Assembler.lean ====
section
/-! DEFINITION. The assembler's rules (R69, R70, R71), outside the engine: which mnemonic and operand make a
command word, the fixed expansions of the pseudo-instructions, the two hexadecimal conversions, and the
reading of one line of text. Text is a list of characters. -/

namespace Sys2Proof.Machine

/-- What the assembler refuses (rules R69, R71). -/
inductive AsmError where
  /-- "An operand on a Z-format mnemonic" (R69). -/
  | operandOnZ
  /-- "a missing operand on a B or X mnemonic" (R69). -/
  | missingOperand
  /-- "an operand above 255" (R69). -/
  | operandAbove255
  /-- Hexadecimal text of odd length or with another character (R71, R175). -/
  | invalidHexInput
  /-- A line of no form R69 or R70 gives: an unknown first word, a number that is none, a missing or surplus
  operand of a pseudo-instruction (assumption 11). -/
  | unreadableLine
  deriving DecidableEq, Repr

/-- One line of assembly: a mnemonic and its operand, if one is written (rule R69). -/
def assemble (m : Mnemonic) (operand : Option Nat) : Except AsmError Command :=
  match m.format, operand with
  | .z, none => .ok (encode (m.instr 0))
  | .z, some _ => .error .operandOnZ
  | _, none => .error .missingOperand
  | _, some n => if n ≤ 255 then .ok (encode (m.instr n)) else .error .operandAbove255

/-- The value of one hexadecimal digit; both cases are accepted (rule R71). -/
def hexDigit (ch : Char) : Option Nat :=
  if '0' ≤ ch ∧ ch ≤ '9' then some (ch.toNat - '0'.toNat)
  else if 'a' ≤ ch ∧ ch ≤ 'f' then some (ch.toNat - 'a'.toNat + 10)
  else if 'A' ≤ ch ∧ ch ≤ 'F' then some (ch.toNat - 'A'.toNat + 10)
  else none

/-- "Hex string → bytes": two digits per byte, first byte first; no partial result (rule R71). -/
def hexToBytes (text : List Char) : Except AsmError (List Byte) :=
  match text with
  | [] => .ok []
  | [_] => .error .invalidHexInput
  | hi :: lo :: rest =>
    match hexDigit hi, hexDigit lo, hexToBytes rest with
    | some h, some l, .ok bytes => .ok (BitVec.ofNat 8 (h * 16 + l) :: bytes)
    | _, _, _ => .error .invalidHexInput

/-- One hexadecimal digit, lower case (rule R71). -/
def digitChar (n : Nat) : Char :=
  if n < 10 then Char.ofNat ('0'.toNat + n) else Char.ofNat ('a'.toNat + (n - 10))

/-- "Bytes → hex string: lowercase, two digits per byte, no separators" (rule R71). -/
def bytesToHex (bytes : List Byte) : List Char :=
  match bytes with
  | [] => []
  | b :: rest => digitChar (b.toNat / 16) :: digitChar (b.toNat % 16) :: bytesToHex rest

/-- `KEY`: KCLR, then one KPUSH per byte in order (rule R70). -/
def keySequence (key : List Byte) : List Instr :=
  .kclr :: key.map .kpush

/-- `BLOCK`: BCLR, then one BPUSH per byte in order (rule R70). -/
def blockSequence (block : List Byte) : List Instr :=
  .bclr :: block.map .bpush

/-- `READBLK`: BRD 0 .. BRD 7 (rule R70). -/
def readBlock : List Instr :=
  (List.range 8).map .brd

/-- `READTAB`: SRD 0 .. SRD 25 (rule R70). -/
def readTable : List Instr :=
  (List.range 26).map .srd

/-- The pseudo-instructions with their hexadecimal operands (rule R70). -/
inductive Pseudo where
  | KEY (hex : List Char)
  | BLOCK (hex : List Char)
  | READBLK
  | READTAB
  | ENCRYPT (keyhex blockhex : List Char)
  | DECRYPT (keyhex blockhex : List Char)
  | ROTATEL (xhex shex : List Char)
  | ROTATER (xhex shex : List Char)
  deriving DecidableEq, Repr

/-- `ENCRYPT` and `DECRYPT` on bytes: load the key, EXPAND, load the block, the cipher command, read the
block (rule R70). -/
def cipherSequence (op : Instr) (key block : List Byte) : List Instr :=
  keySequence key ++ .expand :: blockSequence block ++ op :: readBlock

/-- `ROTATEL` and `ROTATER` on bytes (rule R70). The rule writes both operands as eight digits and does not say
what other lengths do: the model pushes the bytes that are written, however many (assumption 13). -/
def rotateSequence (op : Instr) (x s : List Byte) : List Instr :=
  blockSequence (x ++ s) ++ op :: (List.range 4).map .brd

/-- Two operands are both read before anything is emitted (rule R71: no command of a malformed
pseudo-instruction is emitted). -/
def bothOperands (f : List Byte → List Byte → List Instr) (a b : List Char) : Except AsmError (List Instr) :=
  match hexToBytes a, hexToBytes b with
  | .ok x, .ok y => .ok (f x y)
  | _, _ => .error .invalidHexInput

/-- The fixed expansion of a pseudo-instruction (rules R70, R71). No operand's length is checked but for being
even; that this holds of the eight-digit operands of ROTATEL and ROTATER too is assumption 13. -/
def expandPseudo (p : Pseudo) : Except AsmError (List Instr) :=
  match p with
  | .KEY hex => (hexToBytes hex).map keySequence
  | .BLOCK hex => (hexToBytes hex).map blockSequence
  | .READBLK => .ok readBlock
  | .READTAB => .ok readTable
  | .ENCRYPT k b => bothOperands (cipherSequence .enc) k b
  | .DECRYPT k b => bothOperands (cipherSequence .dec) k b
  | .ROTATEL x s => bothOperands (rotateSequence .rotl) x s
  | .ROTATER x s => bothOperands (rotateSequence .rotr) x s

/-- "`;` starts a comment to the end of the line" (rule R69). -/
def dropComment (line : List Char) : List Char :=
  line.takeWhile fun ch => ch != ';'

/-- The words of a line: blanks, tabs and the comma of R70 stand between words (assumption 11). -/
def lineWords (line : List Char) : List (List Char) :=
  match line with
  | [] => []
  | ch :: rest =>
    let blank := ch == ' ' || ch == '\t' || ch == ','
    match blank, rest, lineWords rest with
    | true, _, words => words
    | false, next :: _, word :: words =>
      if next == ' ' || next == '\t' || next == ',' then [ch] :: word :: words else (ch :: word) :: words
    | false, _, words => [ch] :: words

/-- The value of digits in a base; `none` with no digit or a character that is no digit of the base. -/
def digitsValue (base : Nat) (digits : List Char) : Option Nat :=
  if digits.isEmpty then none
  else digits.foldl (fun acc ch =>
    match acc, hexDigit ch with
    | some n, some d => if d < base then some (n * base + d) else none
    | _, _ => none) (some 0)

/-- "a number in decimal or in hexadecimal with `0x`" (rule R69). -/
def readNumber (word : List Char) : Option Nat :=
  match word with
  | '0' :: 'x' :: digits => digitsValue 16 digits
  | digits => digitsValue 10 digits

/-- The mnemonics "in upper case" (rules R63, R69). -/
def mnemonicNames : List (List Char × Mnemonic) :=
  [ (['S', 'T', 'A', 'T'], .STAT),
    (['K', 'C', 'L', 'R'], .KCLR),
    (['K', 'P', 'U', 'S', 'H'], .KPUSH),
    (['E', 'X', 'P', 'A', 'N', 'D'], .EXPAND),
    (['S', 'R', 'D'], .SRD),
    (['B', 'C', 'L', 'R'], .BCLR),
    (['B', 'P', 'U', 'S', 'H'], .BPUSH),
    (['B', 'R', 'D'], .BRD),
    (['E', 'N', 'C'], .ENC),
    (['D', 'E', 'C'], .DEC),
    (['R', 'O', 'T', 'L'], .ROTL),
    (['R', 'O', 'T', 'R'], .ROTR) ]

/-- A hexadecimal operand; `""` is the empty text (rule R70). -/
def hexOperand (word : List Char) : List Char :=
  if word = ['"', '"'] then [] else word

/-- The pseudo-instruction a line's words spell (rule R70). -/
def readPseudo (words : List (List Char)) : Option Pseudo :=
  match words with
  | [['K', 'E', 'Y'], a] => some (.KEY (hexOperand a))
  | [['B', 'L', 'O', 'C', 'K'], a] => some (.BLOCK (hexOperand a))
  | [['R', 'E', 'A', 'D', 'B', 'L', 'K']] => some .READBLK
  | [['R', 'E', 'A', 'D', 'T', 'A', 'B']] => some .READTAB
  | [['E', 'N', 'C', 'R', 'Y', 'P', 'T'], a, b] => some (.ENCRYPT (hexOperand a) (hexOperand b))
  | [['D', 'E', 'C', 'R', 'Y', 'P', 'T'], a, b] => some (.DECRYPT (hexOperand a) (hexOperand b))
  | [['R', 'O', 'T', 'A', 'T', 'E', 'L'], a, b] => some (.ROTATEL (hexOperand a) (hexOperand b))
  | [['R', 'O', 'T', 'A', 'T', 'E', 'R'], a, b] => some (.ROTATER (hexOperand a) (hexOperand b))
  | _ => none

/-- One line of assembly text, the words of its commands in order (rules R69, R70); an empty line or a
comment alone gives none. -/
def assembleLine (line : List Char) : Except AsmError (List Command) :=
  match lineWords (dropComment line) with
  | [] => .ok []
  | name :: operands =>
    match mnemonicNames.lookup name, operands, readPseudo (name :: operands) with
    | some m, [], _ => (assemble m none).map fun w => [w]
    | some m, [operand], _ =>
      match readNumber operand with
      | some n => (assemble m (some n)).map fun w => [w]
      | none => .error .unreadableLine
    | none, _, some p => (expandPseudo p).map fun is => is.map encode
    | _, _, _ => .error .unreadableLine

/-- A program text, line by line (rule R69: "One command per line"). Rule R71 withholds the commands of a
malformed pseudo-instruction, and no rule speaks of the text's other lines: that a text with a malformed line
emits nothing, and reports the first such line's error, is the model's choice (assumption 14). -/
def assembleText (lines : List (List Char)) : Except AsmError (List Command) :=
  match lines with
  | [] => .ok []
  | line :: rest =>
    match assembleLine line, assembleText rest with
    | .ok ws, .ok more => .ok (ws ++ more)
    | .error e, _ => .error e
    | .ok _, .error e => .error e

end Sys2Proof.Machine
end

