-- ==== Sys2Proof/Safety.lean ====
section
/-! DEFINITION. The terms claims are stated in: the invariant of reachable states (rule R28), what a host can
see of a state (rules R20, R31, R32), and the parts of the state a command leaves unchanged. -/

namespace Sys2Proof.Machine

/-- The ranges of rules R6, R20 and R28, the bounds of the arrays (R40) and of the transient indices
(R24, R26), and the response codes that exist (R66). -/
structure State.WF (s : State) : Prop where
  cfg_legal : s.cfg.Legal
  klen_le : s.KLEN ≤ s.cfg.keyBytesMax + 1
  blen_le : s.BLEN ≤ 9
  key_wf : s.KEY.wf
  key_within : s.KEY.within s.cfg.keyBytesMax
  blk_wf : s.BLK.wf
  blk_within : s.BLK.within 8
  l_length : s.L.length = s.cfg.keyWordsMax
  c_le : s.c ≤ s.cfg.keyWordsMax
  j_lt : s.j < s.c ∨ s.j = 0
  k_lt : s.k < 78
  rsp_code : ∀ r, s.rsp = some r → (responseCode r).toNat ≤ 4

/-- If SV = 1 then S is the table of one key the buffer could hold (rules R22, R28). -/
def State.TableDerived (s : State) : Prop :=
  s.SV = true → ∃ key : List Byte, key.length ≤ s.cfg.keyBytesMax ∧ derive key = some s.S

/-- The invariant of reachable states. -/
structure State.Inv (s : State) : Prop where
  wf : s.WF
  table : s.TableDerived

/-- The states agree on all a host can ever learn of them: the counters, SV, the key and block bytes the
counters cover, the table if SV says there is one, and the ports (rules R20, R31). -/
structure State.SameVisible (s t : State) : Prop where
  cfg : s.cfg = t.cfg
  klen : s.KLEN = t.KLEN
  blen : s.BLEN = t.BLEN
  sv : s.SV = t.SV
  key : ∀ n, n < s.KLEN → n < s.cfg.keyBytesMax → s.KEY.read n = t.KEY.read n
  blk : ∀ n, n < s.BLEN → n < 8 → s.BLK.read n = t.BLK.read n
  table : s.SV = true → s.S = t.S
  rsp : s.rsp = t.rsp
  host : s.host = t.host
  taken : s.taken = t.taken

/-- The key buffer is unchanged: KLEN and every byte of KEY. -/
def SameKey (s t : State) : Prop :=
  t.KLEN = s.KLEN ∧ ∀ a, t.KEY.read a = s.KEY.read a

/-- Every byte of BLK is unchanged. -/
def SameBlockBytes (s t : State) : Prop :=
  ∀ a, t.BLK.read a = s.BLK.read a

/-- The block buffer is unchanged: BLEN and every byte of BLK. -/
def SameBlock (s t : State) : Prop :=
  t.BLEN = s.BLEN ∧ SameBlockBytes s t

/-- The table and its flag are unchanged. -/
def SameTable (s t : State) : Prop :=
  t.S = s.S ∧ t.SV = s.SV

/-- The key schedule's own working registers are unchanged: L, c, j, k. -/
def SameSchedule (s t : State) : Prop :=
  t.L = s.L ∧ t.c = s.c ∧ t.j = s.j ∧ t.k = s.k

/-- All working registers are unchanged: A, B, i, L, c, j, k. -/
def SameWork (s t : State) : Prop :=
  t.A = s.A ∧ t.B = s.B ∧ t.i = s.i ∧ SameSchedule s t

/-- What no command touches: the capacity, the host's further moves and the responses already taken. -/
def SameOutside (s t : State) : Prop :=
  t.cfg = s.cfg ∧ t.host = s.host ∧ t.taken = s.taken

/-- Nothing but the response port differs: "no state is changed" (rule R9). -/
def SameEngine (s t : State) : Prop :=
  t = { s with rsp := t.rsp }

/-- The response port of `t` holds an OK response with data `d` (rule R66). -/
def AnswersOK (t : State) (d : Word) : Prop :=
  t.rsp = some (response okCode d)

/-- The response port of `t` holds the error `e` with the info word `info` (rules R66, R170). -/
def AnswersError (t : State) (e : ErrorKind) (info : Word) : Prop :=
  t.rsp = some (response (errorCode e) info)

/-- A safe run of `n` steps: it ends in a next state that keeps the invariant. Since nothing faults and
nothing is refused (rule R16), every run from a state with the invariant is safe. -/
def SafeRun (n : Nat) (s : State) : Prop :=
  ∃ t, Host.Core.run Sys2Proof.core n s = .next t ∧ t.Inv

/-- The commands of a list executed one after another (rule R47), responses overwritten. -/
def execAll (is : List Instr) (s : State) : Result :=
  match is with
  | [] => .next s
  | i :: rest =>
    match exec i s with
    | .next t => execAll rest t
    | .fault r => .fault r
    | .refused r => .refused r

end Sys2Proof.Machine
end

