-- ==== Sys2Proof/Certificates/Slice0/Obligations.lean ====
section
/-! DEFINITION. The statements about the RC5 cipher engine, file by file of the spec. Where a statement speaks of
reading a byte of KEY or BLK after a write, it assumes that buffer's canonical form (`Memory.wf`), which every
step keeps (`Obligations.StepKeepsInvariant`). -/

open Sys2Proof Sys2Proof.Machine

/-! ### 40_wordops.md -/

/-- R80, R81, R82: addition, subtraction and exclusive-or of words, with the laws and corner cases the rules
name. `%` on `Int` with a positive modulus is the floored modulus of R7. -/
def Obligations.AddSubXorModulo32Bits : Prop :=
  (∀ x y z : Word,
    (add32 x y).toNat = (x.toNat + y.toNat) % 2 ^ 32 ∧
    (add32 (add32 x y) z).toNat = (x.toNat + y.toNat + z.toNat) % 2 ^ 32 ∧
    (add32 x (add32 y z)).toNat = (x.toNat + y.toNat + z.toNat) % 2 ^ 32 ∧
    add32 x 0#32 = x ∧
    ((sub32 x y).toNat : Int) = ((x.toNat : Int) - (y.toNat : Int)) % 2 ^ 32 ∧
    sub32 (add32 x y) y = x ∧ add32 (sub32 x y) y = x ∧ sub32 x x = 0#32 ∧
    (∀ i, i < 32 →
      ((xor32 x y).getLsbD i).toNat = ((x.getLsbD i).toNat + (y.getLsbD i).toNat) % 2) ∧
    xor32 (xor32 x y) y = x ∧ xor32 x y = xor32 y x) ∧
  add32 0xFFFFFFFF#32 1#32 = 0#32 ∧ add32 0x80000000#32 0x80000000#32 = 0#32 ∧
  sub32 0#32 1#32 = 0xFFFFFFFF#32 ∧ sub32 0#32 0x80000000#32 = 0x80000000#32

/-- R83: the rotate amount of any integer, of a word, of a sum of words, and of a two's-complement pattern of
any width from 5 up. -/
def Obligations.RotateAmountIsModulo32 : Prop :=
  (∀ s : Int, (rotamt s : Int) = s % 32 ∧ rotamt s < 32) ∧
  (∀ v : Word, rotamt (v.toNat : Int) = low5 v ∧ low5 v = v.toNat % 32) ∧
  (∀ a b : Word, low5 (add32 a b) = (a.toNat + b.toNat) % 32 ∧
    low5 (add32 a b) = (low5 a + low5 b) % 32) ∧
  (∀ n : Nat, 5 ≤ n → ∀ p : BitVec n, rotamt p.toInt = (p.extractLsb' 0 5).toNat) ∧
  rotamt 0 = 0 ∧ rotamt 32 = 0 ∧ rotamt 36 = 4 ∧ rotamt (-1) = 31 ∧ rotamt (-4) = 28 ∧
  rotamt (-32) = 0 ∧ rotamt 1000003 = 3

/-- R84: rotate left, by the formula, bit by bit, and in the corner cases. -/
def Obligations.RotlMovesEachBitUp : Prop :=
  ∀ (x : Word) (s : Int),
    (rotamt s = 0 → rotl x s = x) ∧
    (rotamt s ≠ 0 →
      (rotl x s).toNat = ((x.toNat * 2 ^ rotamt s) ||| (x.toNat / 2 ^ (32 - rotamt s))) % 2 ^ 32) ∧
    (∀ i, i < 32 → (rotl x s).getLsbD ((i + rotamt s) % 32) = x.getLsbD i) ∧
    rotl x 0 = x ∧ rotl x 32 = x ∧ rotl x (-32) = x ∧
    rotl 0#32 s = 0#32 ∧ rotl 0xFFFFFFFF#32 s = 0xFFFFFFFF#32 ∧
    rotl x 16 = x.extractLsb' 0 16 ++ x.extractLsb' 16 16 ∧
    rotl 0x80000001#32 1 = 0x00000003#32 ∧ rotl 0x00000001#32 31 = 0x80000000#32 ∧
    rotl 0x12345678#32 4 = 0x23456781#32

/-- R85: rotate right, by the formula, bit by bit, and in the corner cases. -/
def Obligations.RotrMovesEachBitDown : Prop :=
  ∀ (x : Word) (s : Int),
    (rotamt s = 0 → rotr x s = x) ∧
    (rotamt s ≠ 0 →
      (rotr x s).toNat = ((x.toNat / 2 ^ rotamt s) ||| (x.toNat * 2 ^ (32 - rotamt s))) % 2 ^ 32) ∧
    (∀ i, i < 32 → (rotr x s).getLsbD i = x.getLsbD ((i + rotamt s) % 32)) ∧
    rotr x 0 = x ∧ rotr x 32 = x ∧ rotr x (-32) = x ∧
    rotr 0#32 s = 0#32 ∧ rotr 0xFFFFFFFF#32 s = 0xFFFFFFFF#32 ∧
    rotr x 16 = x.extractLsb' 0 16 ++ x.extractLsb' 16 16 ∧
    rotr 0x80000001#32 1 = 0xC0000000#32 ∧ rotr 0x00000001#32 31 = 0x00000002#32 ∧
    rotr 0x12345678#32 4 = 0x81234567#32

/-- R86 (a) to (g): the laws of the rotates for all words and all integer amounts. -/
def Obligations.RotateLaws : Prop :=
  (∀ (x y : Word) (s t : Int),
    rotr (rotl x s) s = x ∧
    rotl (rotr x s) s = x ∧
    rotl x s = rotl x (s + 32) ∧ rotl x s = rotl x (rotamt s) ∧
    rotr x s = rotr x (s + 32) ∧ rotr x s = rotr x (rotamt s) ∧
    rotl x s = rotr x (-s) ∧ rotl x s = rotr x (32 - (rotamt s : Int)) ∧
    rotl (rotl x s) t = rotl x (s + t) ∧
    rotl (xor32 x y) s = xor32 (rotl x s) (rotl y s)) ∧
  (∀ s : Int, Function.Bijective (fun x : Word => rotl x s) ∧
    Function.Bijective (fun x : Word => rotr x s)) ∧
  ∃ (x y : Word) (s : Int), rotl (add32 x y) s ≠ add32 (rotl x s) (rotl y s)

/-- R87: ROTL with 8 block bytes rotates A by the signed reading of B and writes BLK[0 .. 3] alone, and ROTR then
undoes it; with any other length it answers InvalidInput 1 and changes nothing. -/
def Obligations.RotlCommandRotatesBlock : Prop :=
  encode .rotl = 0x4000#16 ∧
  ∀ s : State,
    (s.BLEN = 8 → s.BLK.wf →
      ∃ t, exec .rotl s = .next t ∧
        let x := be32 (s.BLK.read 0) (s.BLK.read 1) (s.BLK.read 2) (s.BLK.read 3)
        let v := be32 (s.BLK.read 4) (s.BLK.read 5) (s.BLK.read 6) (s.BLK.read 7)
        let r := rotl x v.toInt
        t.A = r ∧ t.B = v ∧ r = rotl x (low5 v) ∧
        (v = 0#32 ∨ v = 32#32 ∨ v = 0xFFFFFFE0#32 → r = x) ∧
        (∃ u, exec .rotr t = .next u ∧ u.BLK = s.BLK ∧ u.BLEN = 8) ∧
        (t.BLK.read 0, t.BLK.read 1, t.BLK.read 2, t.BLK.read 3) = bytes4 r ∧
        (∀ a, 4 ≤ a → t.BLK.read a = s.BLK.read a) ∧
        t.BLEN = 8 ∧ AnswersOK t r ∧
        SameKey s t ∧ SameTable s t ∧ t.i = s.i ∧ SameSchedule s t ∧ SameOutside s t) ∧
    (s.BLEN ≠ 8 →
      ∃ t, exec .rotl s = .next t ∧ AnswersError t .invalidInput 1#32 ∧ SameEngine s t)

/-- R88: ROTR, as ROTL to the right. -/
def Obligations.RotrCommandRotatesBlock : Prop :=
  encode .rotr = 0x4100#16 ∧
  ∀ s : State,
    (s.BLEN = 8 → s.BLK.wf →
      ∃ t, exec .rotr s = .next t ∧
        let x := be32 (s.BLK.read 0) (s.BLK.read 1) (s.BLK.read 2) (s.BLK.read 3)
        let v := be32 (s.BLK.read 4) (s.BLK.read 5) (s.BLK.read 6) (s.BLK.read 7)
        let r := rotr x v.toInt
        t.A = r ∧ t.B = v ∧ r = rotr x (low5 v) ∧
        (v = 0#32 ∨ v = 32#32 ∨ v = 0xFFFFFFE0#32 → r = x) ∧
        (∃ u, exec .rotl t = .next u ∧ u.BLK = s.BLK ∧ u.BLEN = 8) ∧
        (t.BLK.read 0, t.BLK.read 1, t.BLK.read 2, t.BLK.read 3) = bytes4 r ∧
        (∀ a, 4 ≤ a → t.BLK.read a = s.BLK.read a) ∧
        t.BLEN = 8 ∧ AnswersOK t r ∧
        SameKey s t ∧ SameTable s t ∧ t.i = s.i ∧ SameSchedule s t ∧ SameOutside s t) ∧
    (s.BLEN ≠ 8 →
      ∃ t, exec .rotr s = .next t ∧ AnswersError t .invalidInput 1#32 ∧ SameEngine s t)

/-! ### 20_memory.md -/

/-- R41: the two conversions, by their formulas, and that they are inverse to each other. -/
def Obligations.BytesAndWordsAreBigEndian : Prop :=
  (∀ b0 b1 b2 b3 : Byte,
    (be32 b0 b1 b2 b3).toNat =
      b0.toNat * 2 ^ 24 + b1.toNat * 2 ^ 16 + b2.toNat * 2 ^ 8 + b3.toNat ∧
    bytes4 (be32 b0 b1 b2 b3) = (b0, b1, b2, b3)) ∧
  ∀ v : Word,
    be32 (bytes4 v).1 (bytes4 v).2.1 (bytes4 v).2.2.1 (bytes4 v).2.2.2 = v ∧
    (bytes4 v).1.toNat = v.toNat / 2 ^ 24 ∧
    (bytes4 v).2.1.toNat = v.toNat / 2 ^ 16 % 256 ∧
    (bytes4 v).2.2.1.toNat = v.toNat / 2 ^ 8 % 256 ∧
    (bytes4 v).2.2.2.toNat = v.toNat % 256

/-- R45: STAT, SRD and BRD change no state, and repeated they answer the same. -/
def Obligations.ReadsHaveNoSideEffects : Prop :=
  ∀ (s t : State) (idx : Nat) (i : Instr), i = .stat ∨ i = .srd idx ∨ i = .brd idx →
    exec i s = .next t → SameEngine s t ∧ exec i t = .next t

/-- R47: n commands sent in order get exactly n responses, in order, the n-th being what the n-th command
left on the response port; none is lost and none is added. That the host's commands are a list in the state, and
that a waiting response is taken before the next transfer, is the model's form (assumptions 4, 5). -/
def Obligations.OneResponsePerCommandInOrder : Prop :=
  ∀ (ws : List Command) (s : State), s.host = ws.map .command →
    ∃ (t : State) (rs : List Response),
      Host.Core.run Sys2Proof.core ws.length s = .next t ∧ t.host = [] ∧
      rs.length = ws.length ∧
      t.taken ++ t.rsp.toList = s.taken ++ s.rsp.toList ++ rs ∧
      ∀ n, n < ws.length →
        ∃ u, Host.Core.run Sys2Proof.core (n + 1) s = .next u ∧ u.rsp = rs[n]?

/-- R48 with R70: on the engine, `derive` is KCLR, one KPUSH per key byte in order and EXPAND, for every key
the buffer can hold that has a key word. -/
def Obligations.KeyLoadThenExpandDerives : Prop :=
  ∀ (s : State) (key : List Byte), s.KEY.wf → 4 ≤ key.length → key.length ≤ s.cfg.keyBytesMax →
    ∃ t, execAll (keySequence key ++ [.expand]) s = .next t ∧
      derive key = some t.S ∧ t.SV = true ∧ t.KLEN = key.length ∧
      AnswersOK t (BitVec.ofNat 32 (key.length % 4 * 2 ^ 16 + key.length / 4)) ∧
      SameBlock s t ∧ SameOutside s t

/-- R48 with R70: on the engine with a table, `encrypt` is BCLR, eight BPUSH, ENC, and BRD 0 to BRD 7 return
the result block, A's bytes then B's; `decrypt` is the same with DEC. -/
def Obligations.BlockLoadCipherRead : Prop :=
  ∀ (s : State) (b0 b1 b2 b3 b4 b5 b6 b7 : Byte), s.BLK.wf → s.SV = true →
    ∀ (op : Instr) (out : Word × Word),
      (op = .enc ∧ out = encrypt s.S (be32 b0 b1 b2 b3) (be32 b4 b5 b6 b7)) ∨
      (op = .dec ∧ out = decrypt s.S (be32 b0 b1 b2 b3) (be32 b4 b5 b6 b7)) →
    ∃ t, execAll (blockSequence [b0, b1, b2, b3, b4, b5, b6, b7] ++ [op]) s = .next t ∧
      AnswersOK t 0#32 ∧ SameKey s t ∧ SameTable s t ∧ SameOutside s t ∧
      ∀ n, n < 8 → ∃ u, exec (.brd n) t = .next u ∧
        AnswersOK u (([(bytes4 out.1).1, (bytes4 out.1).2.1, (bytes4 out.1).2.2.1, (bytes4 out.1).2.2.2,
          (bytes4 out.2).1, (bytes4 out.2).2.1, (bytes4 out.2).2.2.1, (bytes4 out.2).2.2.2].getD n 0#8).setWidth 32)

/-! ### 30_encoding.md -/

/-- R63, R64, R65: decoding agrees with the opcode map. At most one row selects a word; a selected row's
instruction is what decoding gives, with `arg` as its operand; a word no row selects is rejected by name. -/
def Obligations.DecodeFollowsOpcodeTable : Prop :=
  ∀ w : Command,
    (opcodeTable.filter fun r => r.selects w).length ≤ 1 ∧
    (∀ r ∈ opcodeTable, r.selects w = true →
      decode w = .ok (r.mnemonic.instr (argField w).toNat) ∧ r.format = r.mnemonic.format) ∧
    ((∀ r ∈ opcodeTable, r.selects w = false) →
      decode w = .error (.unusedOpcode (opField w)) ∨
      decode w = .error (.nonzeroArg (opField w) (argField w)))

/-- Decoding an encoded well-formed command gives it back, every operand at every value (R60 to R64). -/
def Obligations.DecodeEncodeRoundTrip : Prop :=
  ∀ i : Instr, i.wellFormed = true → decode (encode i) = .ok i

/-- Each legal word is the encoding of what it decodes to, so no two words decode to one command
(R60 to R64). -/
def Obligations.EncodeDecodeRoundTrip : Prop :=
  ∀ (w : Command) (i : Instr), decode w = .ok i → i.wellFormed = true ∧ encode i = w

/-- R64's count: the legal words are 1032 and the illegal words 64504 of the 65536. -/
def Obligations.LegalWordsNumber1032 : Prop :=
  (∃ legal : List Command, legal.Nodup ∧ legal.length = 1032 ∧
    ∀ w, w ∈ legal ↔ ∃ i, decode w = .ok i) ∧
  ∃ illegal : List Command, illegal.Nodup ∧ illegal.length = 64504 ∧
    ∀ w, w ∈ illegal ↔ ∃ e, decode w = .error e

/-- R63 and R69: words written out from the opcode map decode to their commands. A sanity statement. -/
def Obligations.WrittenWordsDecode : Prop :=
  decode 0x0100#16 = .ok .stat ∧ decode 0x110A#16 = .ok (.kpush 0x0A#8) ∧
  decode 0x1200#16 = .ok .expand ∧ decode 0x1319#16 = .ok (.srd 25) ∧
  decode 0x21C7#16 = .ok (.bpush 0xC7#8) ∧ decode 0x2203#16 = .ok (.brd 3) ∧
  decode 0x3000#16 = .ok .enc ∧ decode 0x4100#16 = .ok .rotr ∧
  decode 0x3001#16 = .error (.nonzeroArg 0x30#8 0x01#8) ∧
  decode 0x0000#16 = .error (.unusedOpcode 0x00#8) ∧ decode 0xFFFF#16 = .error (.unusedOpcode 0xFF#8)

/-- R69: exactly which lines assemble, and an assembled line is a legal word that decodes to the mnemonic's
command with the operand written. -/
def Obligations.AssembledLinesDecode : Prop :=
  (∀ (m : Mnemonic) (operand : Option Nat) (w : Command), assemble m operand = .ok w →
    decode w = .ok (m.instr (operand.getD 0)) ∧ (operand.isSome = true ↔ m.format ≠ .z)) ∧
  (∀ (m : Mnemonic) (operand : Option Nat),
    (m.format = .z ∧ operand = none) ∨ (m.format ≠ .z ∧ ∃ n, n ≤ 255 ∧ operand = some n) →
    ∃ w, assemble m operand = .ok w) ∧
  (∀ (m : Mnemonic) (n : Nat), m.format = .z → assemble m (some n) = .error .operandOnZ) ∧
  (∀ m : Mnemonic, m.format ≠ .z → assemble m none = .error .missingOperand) ∧
  (∀ (m : Mnemonic) (n : Nat), m.format ≠ .z → 255 < n → assemble m (some n) = .error .operandAbove255)

/-- R69 on text: every mnemonic has a name, and a line of that name and, after a blank, a number in decimal or in
hexadecimal with `0x` assembles as that mnemonic and operand; `;` starts a comment; a line that is one word of
lower-case letters is the error `unreadableLine`. Where blanks stand, and that error, which is none of the three
R69 lists, are the model's choices (assumption 11). -/
def Obligations.TextLinesAssemble : Prop :=
  (∀ m : Mnemonic, ∃ name, (name, m) ∈ mnemonicNames) ∧
  (∀ entry ∈ mnemonicNames,
    assembleLine entry.1 = (assemble entry.2 none).map (fun w => [w]) ∧
    (∀ n, n ≤ 256 → assembleLine (entry.1 ++ ' ' :: (toString n).toList) =
      (assemble entry.2 (some n)).map (fun w => [w])) ∧
    ∀ b : Byte, assembleLine (entry.1 ++ ' ' :: '0' :: 'x' :: bytesToHex [b]) =
      (assemble entry.2 (some b.toNat)).map (fun w => [w])) ∧
  (∀ line comment : List Char, assembleLine (line ++ ';' :: comment) = assembleLine line) ∧
  ∀ name : List Char, name ≠ [] → (∀ ch ∈ name, 'a' ≤ ch ∧ ch ≤ 'z') →
    assembleLine name = .error .unreadableLine

/-- R71: the text of any bytes reads back as those bytes, text of odd length is InvalidHexInput, and a
pseudo-instruction with a malformed operand emits nothing. -/
def Obligations.HexTextRoundTrip : Prop :=
  (∀ bytes : List Byte, hexToBytes (bytesToHex bytes) = .ok bytes) ∧
  (∀ text : List Char, text.length % 2 = 1 → hexToBytes text = .error .invalidHexInput) ∧
  (∀ text : List Char, (∃ ch ∈ text, hexDigit ch = none) → hexToBytes text = .error .invalidHexInput) ∧
  (∀ text other : List Char, hexToBytes text = .error .invalidHexInput →
    ∀ p ∈ [Pseudo.KEY text, .BLOCK text, .ENCRYPT text other, .ENCRYPT other text, .DECRYPT text other,
      .DECRYPT other text, .ROTATEL text other, .ROTATEL other text, .ROTATER text other,
      .ROTATER other text], expandPseudo p = .error .invalidHexInput)

/-! ### 41_keyschedule.md -/

/-- R100 (with R42): the key words are one per whole 4-byte chunk, big-endian, in order; a partial chunk is
dropped; with no word there is no table. -/
def Obligations.KeyPartitionDropsPartialChunk : Prop :=
  ∀ key : List Byte,
    (keyWords key).length = key.length / 4 ∧
    (∀ w, w < key.length / 4 →
      (keyWords key)[w]? = some (be32 (key.getD (4 * w) 0#8) (key.getD (4 * w + 1) 0#8)
        (key.getD (4 * w + 2) 0#8) (key.getD (4 * w + 3) 0#8))) ∧
    (derive key = none ↔ key.length / 4 = 0)

/-- R102: the 26 seeds, by the formula, by the recurrence and as the table of the rule. -/
def Obligations.SeedsFollowConstants : Prop :=
  (∀ i : Nat, (seed i).toNat = (0xB7E15163 + i * 0x9E3779B9) % 2 ^ 32 ∧
    seed (i + 1) = add32 (seed i) 0x9E3779B9#32) ∧
  seed 0 = 0xB7E15163#32 ∧
  (∀ i : Fin 26, seedTable.get i = seed i.val) ∧
  seedTable.toList =
    [0xB7E15163#32, 0x5618CB1C#32, 0xF45044D5#32, 0x9287BE8E#32, 0x30BF3847#32, 0xCEF6B200#32, 0x6D2E2BB9#32,
     0x0B65A572#32, 0xA99D1F2B#32, 0x47D498E4#32, 0xE60C129D#32, 0x84438C56#32, 0x227B060F#32, 0xC0B27FC8#32,
     0x5EE9F981#32, 0xFD21733A#32, 0x9B58ECF3#32, 0x399066AC#32, 0xD7C7E065#32, 0x75FF5A1E#32, 0x1436D3D7#32,
     0xB26E4D90#32, 0x50A5C749#32, 0xEEDD4102#32, 0x8D14BABB#32, 0x2B4C3474#32]

/-- R103: one mix iteration on any working set with j inside the key words: both assignments, what each
reads, the entries left alone, and the two index updates. The rotates are core Lean's. -/
def Obligations.MixstepReadsNewAAndOldB : Prop :=
  ∀ m : Mix, m.j < m.L.length →
    let a := (m.S.get m.i + m.A + m.B).rotateLeft 3
    let b := (m.L.getD m.j 0#32 + a + m.B).rotateLeft ((a + m.B).toNat % 32)
    (mixstep m).A = a ∧ (mixstep m).S.get m.i = a ∧
    (∀ n, n ≠ m.i → (mixstep m).S.get n = m.S.get n) ∧
    (mixstep m).B = b ∧ (mixstep m).L[m.j]? = some b ∧
    (∀ n, n ≠ m.j → (mixstep m).L[n]? = m.L[n]?) ∧
    (mixstep m).L.length = m.L.length ∧
    (mixstep m).i.val = (m.i.val + 1) % 26 ∧ (mixstep m).j = (m.j + 1) % m.L.length

/-- R104, R106 (c): at iteration k the indices are k mod 26 and k mod c; entry n of S is written at the
iterations k with k mod 26 = n, with the A they produce, and at no other, so three times, last at k = 52 + n;
the final S[25] is the final A. -/
def Obligations.MixLoopWritesEachEntryThreeTimes : Prop :=
  ∀ L : List Word, L ≠ [] →
    (∀ k, (mixTimes k (mixStart L)).i.val = k % 26 ∧ (mixTimes k (mixStart L)).j = k % L.length) ∧
    (∀ (k : Nat) (n : Fin 26), k % 26 = n.val →
      (mixTimes (k + 1) (mixStart L)).S.get n = (mixTimes (k + 1) (mixStart L)).A) ∧
    (∀ (k : Nat) (n : Fin 26), k % 26 ≠ n.val →
      (mixTimes (k + 1) (mixStart L)).S.get n = (mixTimes k (mixStart L)).S.get n) ∧
    schedule L = mixTimes 78 (mixStart L) ∧
    (∀ n : Fin 26, (schedule L).S.get n = (mixTimes (53 + n.val) (mixStart L)).A) ∧
    (schedule L).S.get 25 = (schedule L).A

/-- R106 (a), R42: the table depends only on the number of whole chunks and on their bytes. -/
def Obligations.DeriveIgnoresPartialChunk : Prop :=
  ∀ key1 key2 : List Byte, key1.length / 4 = key2.length / 4 →
    key1.take (4 * (key1.length / 4)) = key2.take (4 * (key2.length / 4)) →
    derive key1 = derive key2

/-- R108: KCLR sets KLEN to 0 and writes nothing else; a following STAT shows KLEN = 0. -/
def Obligations.KclrEmptiesKey : Prop :=
  encode .kclr = 0x1000#16 ∧
  ∀ s : State, ∃ t, exec .kclr s = .next t ∧
    t.KLEN = 0 ∧ (∀ a, t.KEY.read a = s.KEY.read a) ∧ AnswersOK t 0#32 ∧
    SameTable s t ∧ SameBlock s t ∧ SameWork s t ∧ SameOutside s t ∧
    (s.BLEN ≤ 9 → ∃ u d, exec .stat t = .next u ∧ AnswersOK u d ∧ d.extractLsb' 0 16 = 0#16)

/-- R109: KPUSH stores its byte at index KLEN while there is room and counts it; past the capacity the byte
is dropped, KLEN is KEY_BYTES_MAX + 1, and the next EXPAND reports KeyOverflow. -/
def Obligations.KpushAppendsKeyByte : Prop :=
  (∀ imm8 : Byte, (encode (.kpush imm8)).toNat = 0x1100 + imm8.toNat) ∧
  (∀ (s : State) (imm8 : Byte), s.KEY.wf →
    ∃ t, exec (.kpush imm8) s = .next t ∧
      (s.KLEN < s.cfg.keyBytesMax →
        t.KLEN = s.KLEN + 1 ∧ t.KEY.read s.KLEN = imm8 ∧
        ∀ a, a ≠ s.KLEN → t.KEY.read a = s.KEY.read a) ∧
      (s.cfg.keyBytesMax ≤ s.KLEN →
        t.KLEN = s.cfg.keyBytesMax + 1 ∧ (∀ a, t.KEY.read a = s.KEY.read a) ∧
        ∃ u, exec .expand t = .next u ∧
          AnswersError u .keyOverflow (BitVec.ofNat 32 s.cfg.keyBytesMax)) ∧
      AnswersOK t (BitVec.ofNat 32 t.KLEN) ∧
      SameTable s t ∧ SameBlock s t ∧ SameWork s t ∧ SameOutside s t) ∧
  (∀ s : State, 4 ≤ s.KLEN →
    (keyWords (keyBytes s.KEY s.KLEN))[0]?.map (fun v => v.extractLsb' 24 8) = some (s.KEY.read 0))

/-- R110, the command that runs: EXPAND with 4 .. KEY_BYTES_MAX key bytes derives the table from exactly
those bytes, sets SV, reports the ignored bytes and the word count, and leaves the key and the block alone;
repeated, it gives the same table. Its working registers are L's first c entries, c, A, B, i, j and k. That L keeps
its length and its entries from c on is the model's reading (assumption 3), not a rule's. -/
def Obligations.ExpandDerivesTable : Prop :=
  encode .expand = 0x1200#16 ∧
  ∀ s : State, s.WF → 4 ≤ s.KLEN → s.KLEN ≤ s.cfg.keyBytesMax →
    ∃ t, exec .expand s = .next t ∧
      (∀ key : List Byte, key.length = s.KLEN → (∀ n, n < s.KLEN → key[n]? = some (s.KEY.read n)) →
        derive key = some t.S) ∧
      t.SV = true ∧
      AnswersOK t (BitVec.ofNat 32 (s.KLEN % 4 * 2 ^ 16 + s.KLEN / 4)) ∧
      SameKey s t ∧ SameBlock s t ∧ SameOutside s t ∧
      t.c = s.KLEN / 4 ∧ t.L.length = s.L.length ∧ (∀ n, s.KLEN / 4 ≤ n → t.L[n]? = s.L[n]?) ∧
      t.A = t.S.get 25 ∧
      ∃ u, exec .expand t = .next u ∧ u.S = t.S ∧ u.SV = true

/-- R110, the two errors, with R171, R174 and R107: both leave the state as it was, an earlier table
included, and with a legal capacity they exclude each other. That "as it was" takes in the register c, which
EXPAND's pseudocode names before the InvalidKey check, is the model's reading (assumption 10). -/
def Obligations.ExpandErrorsKeepTable : Prop :=
  ∀ s : State, s.cfg.Legal →
    (s.KLEN = s.cfg.keyBytesMax + 1 →
      ∃ t, exec .expand s = .next t ∧
        AnswersError t .keyOverflow (BitVec.ofNat 32 s.cfg.keyBytesMax) ∧ SameEngine s t) ∧
    (s.KLEN / 4 = 0 →
      ∃ t, exec .expand s = .next t ∧
        AnswersError t .invalidKey (BitVec.ofNat 32 s.KLEN) ∧ SameEngine s t) ∧
    ¬ (s.KLEN = s.cfg.keyBytesMax + 1 ∧ s.KLEN / 4 = 0)

/-- R111: SRD answers S[idx] when there is a table and idx < 26, and otherwise InvalidInput with the mask of
what failed; in every case no state changes. -/
def Obligations.SrdReturnsTableWord : Prop :=
  (∀ idx, idx < 256 → (encode (.srd idx)).toNat = 0x1300 + idx) ∧
  ∀ (s : State) (idx : Nat), ∃ t, exec (.srd idx) s = .next t ∧ SameEngine s t ∧
    (s.SV = true → ∀ h : idx < 26, AnswersOK t (s.S[idx])) ∧
    (s.SV = true → 26 ≤ idx → AnswersError t .invalidInput 4#32) ∧
    (s.SV = false → idx < 26 → AnswersError t .invalidInput 2#32) ∧
    (s.SV = false → 26 ≤ idx → AnswersError t .invalidInput 6#32)

/-! ### 42_blockcipher.md -/

/-- R130 to R134: the iterations' two assignments, which value of A and B each uses, and the order of the
iterations in `encrypt` and `decrypt`. The rotates are core Lean's. -/
def Obligations.CipherRoundsInOrder : Prop :=
  ∀ (S : Table) (A B : Word),
    (∀ i ∈ loopIndices, ∃ h : i.val + 1 < 26,
      let a := (A ^^^ B).rotateLeft (B.toNat % 32) + S.get i
      encround S i A B = (a, (a ^^^ B).rotateLeft (a.toNat % 32) + S[i.val + 1]) ∧
      let b := (B - S[i.val + 1]).rotateRight (A.toNat % 32) ^^^ A
      decround S i A B = ((A - S.get i).rotateRight (b.toNat % 32) ^^^ b, b)) ∧
    (let p1 := encround S 1 (A + S.get 0) (B + S.get 1)
     let p3 := encround S 3 p1.1 p1.2
     let p5 := encround S 5 p3.1 p3.2
     let p7 := encround S 7 p5.1 p5.2
     let p9 := encround S 9 p7.1 p7.2
     encrypt S A B = encround S 11 p9.1 p9.2) ∧
    (let p11 := decround S 11 A B
     let p9 := decround S 9 p11.1 p11.2
     let p7 := decround S 7 p9.1 p9.2
     let p5 := decround S 5 p7.1 p7.2
     let p3 := decround S 3 p5.1 p5.2
     let p1 := decround S 1 p3.1 p3.2
     decrypt S A B = (p1.1 - S.get 0, p1.2 - S.get 1))

/-- R135: for every table, derived or not, decryption undoes encryption and encryption undoes decryption;
each is a bijection of the blocks, and one loop iteration undoes the other. -/
def Obligations.EncryptDecryptInverse : Prop :=
  ∀ S : Table,
    (∀ A B : Word,
      decrypt S (encrypt S A B).1 (encrypt S A B).2 = (A, B) ∧
      encrypt S (decrypt S A B).1 (decrypt S A B).2 = (A, B)) ∧
    (∀ (i : Fin 26) (A B : Word), decround S i (encround S i A B).1 (encround S i A B).2 = (A, B)) ∧
    Function.Bijective (fun p : Word × Word => encrypt S p.1 p.2) ∧
    Function.Bijective (fun p : Word × Word => decrypt S p.1 p.2)

/-- R138: the cipher reads exactly S[0] to S[12]: tables that agree there give the same results, and each of
those entries matters to some encryption and some decryption. -/
def Obligations.CipherReadsExactlyEntries0To12 : Prop :=
  (∀ S T : Table, (∀ n : Fin 26, n.val ≤ 12 → S.get n = T.get n) →
    ∀ A B : Word, encrypt S A B = encrypt T A B ∧ decrypt S A B = decrypt T A B) ∧
  ∀ n : Fin 26, n.val ≤ 12 →
    ∃ (S T : Table) (A B : Word), (∀ m : Fin 26, m ≠ n → S.get m = T.get m) ∧
      encrypt S A B ≠ encrypt T A B ∧ decrypt S A B ≠ decrypt T A B

/-- R139: BCLR sets BLEN to 0 and writes nothing else; no block byte is readable afterwards. -/
def Obligations.BclrEmptiesBlock : Prop :=
  encode .bclr = 0x2000#16 ∧
  ∀ s : State, ∃ t, exec .bclr s = .next t ∧
    t.BLEN = 0 ∧ SameBlockBytes s t ∧ AnswersOK t 0#32 ∧
    SameKey s t ∧ SameTable s t ∧ SameWork s t ∧ SameOutside s t ∧
    ∀ idx, ∃ u, exec (.brd idx) t = .next u ∧ AnswersError u .invalidInput 4#32

/-- R140: BPUSH stores its byte at index BLEN while BLEN < 8 and counts it; a further byte is dropped, BLEN is
9, and ENC, DEC, ROTL and ROTR then report InvalidInput with bit 0 set. -/
def Obligations.BpushAppendsBlockByte : Prop :=
  (∀ imm8 : Byte, (encode (.bpush imm8)).toNat = 0x2100 + imm8.toNat) ∧
  ∀ (s : State) (imm8 : Byte), s.BLK.wf →
    ∃ t, exec (.bpush imm8) s = .next t ∧
      (s.BLEN < 8 →
        t.BLEN = s.BLEN + 1 ∧ t.BLK.read s.BLEN = imm8 ∧
        ∀ a, a ≠ s.BLEN → t.BLK.read a = s.BLK.read a) ∧
      (8 ≤ s.BLEN →
        t.BLEN = 9 ∧ SameBlockBytes s t ∧
        ∀ i : Instr, i = .enc ∨ i = .dec ∨ i = .rotl ∨ i = .rotr →
          ∃ u d, exec i t = .next u ∧ AnswersError u .invalidInput d ∧ d.getLsbD 0 = true) ∧
      AnswersOK t (BitVec.ofNat 32 t.BLEN) ∧
      SameKey s t ∧ SameTable s t ∧ SameWork s t ∧ SameOutside s t

/-- R141: BRD answers the byte, zero-extended, when idx is below 8 and below BLEN, and otherwise InvalidInput
4; in both cases no state changes. -/
def Obligations.BrdReturnsBlockByte : Prop :=
  (∀ idx, idx < 256 → (encode (.brd idx)).toNat = 0x2200 + idx) ∧
  ∀ (s : State) (idx : Nat), ∃ t, exec (.brd idx) s = .next t ∧ SameEngine s t ∧
    (idx < 8 → idx < s.BLEN →
      ∃ d, AnswersOK t d ∧ d.toNat = (s.BLK.read idx).toNat) ∧
    (8 ≤ idx ∨ s.BLEN ≤ idx → AnswersError t .invalidInput 4#32)

/-- R142: ENC with 8 block bytes and a table replaces the block by its encryption, and DEC then restores
it; otherwise it answers InvalidInput with the mask of what failed and changes nothing. That a successful ENC keeps j
and k is the model's reading (assumption 3): R20 lists ENC among the writers of i, j and k, and R142 speaks of
neither. -/
def Obligations.EncEncryptsBlockInPlace : Prop :=
  encode .enc = 0x3000#16 ∧
  ∀ s : State,
    (s.BLEN = 8 → s.SV = true → s.BLK.wf →
      ∃ t, exec .enc s = .next t ∧
        let p := encrypt s.S (be32 (s.BLK.read 0) (s.BLK.read 1) (s.BLK.read 2) (s.BLK.read 3))
          (be32 (s.BLK.read 4) (s.BLK.read 5) (s.BLK.read 6) (s.BLK.read 7))
        (t.A, t.B) = p ∧
        (∃ u, exec .dec t = .next u ∧ u.BLK = s.BLK ∧ u.BLEN = 8) ∧
        (t.BLK.read 0, t.BLK.read 1, t.BLK.read 2, t.BLK.read 3) = bytes4 p.1 ∧
        (t.BLK.read 4, t.BLK.read 5, t.BLK.read 6, t.BLK.read 7) = bytes4 p.2 ∧
        (∀ a, 8 ≤ a → t.BLK.read a = s.BLK.read a) ∧
        t.BLEN = 8 ∧ AnswersOK t 0#32 ∧
        SameKey s t ∧ SameTable s t ∧ SameSchedule s t ∧ SameOutside s t) ∧
    (s.BLEN ≠ 8 ∨ s.SV = false →
      ∃ t, exec .enc s = .next t ∧ SameEngine s t ∧
        AnswersError t .invalidInput
          (BitVec.ofNat 32 ((if s.BLEN ≠ 8 then 1 else 0) + (if s.SV = false then 2 else 0))))

/-- R143: DEC, as ENC with `decrypt`. That a successful DEC keeps j and k is the model's reading (assumption 3):
R20 lists DEC among the writers of i, j and k, and R143 speaks of neither. -/
def Obligations.DecDecryptsBlockInPlace : Prop :=
  encode .dec = 0x3100#16 ∧
  ∀ s : State,
    (s.BLEN = 8 → s.SV = true → s.BLK.wf →
      ∃ t, exec .dec s = .next t ∧
        let p := decrypt s.S (be32 (s.BLK.read 0) (s.BLK.read 1) (s.BLK.read 2) (s.BLK.read 3))
          (be32 (s.BLK.read 4) (s.BLK.read 5) (s.BLK.read 6) (s.BLK.read 7))
        (t.A, t.B) = p ∧
        (∃ u, exec .enc t = .next u ∧ u.BLK = s.BLK ∧ u.BLEN = 8) ∧
        (t.BLK.read 0, t.BLK.read 1, t.BLK.read 2, t.BLK.read 3) = bytes4 p.1 ∧
        (t.BLK.read 4, t.BLK.read 5, t.BLK.read 6, t.BLK.read 7) = bytes4 p.2 ∧
        (∀ a, 8 ≤ a → t.BLK.read a = s.BLK.read a) ∧
        t.BLEN = 8 ∧ AnswersOK t 0#32 ∧
        SameKey s t ∧ SameTable s t ∧ SameSchedule s t ∧ SameOutside s t) ∧
    (s.BLEN ≠ 8 ∨ s.SV = false →
      ∃ t, exec .dec s = .next t ∧ SameEngine s t ∧
        AnswersError t .invalidInput
          (BitVec.ofNat 32 ((if s.BLEN ≠ 8 then 1 else 0) + (if s.SV = false then 2 else 0))))

/-! ### 43_status.md -/

/-- R160: STAT answers the status word field by field, changes nothing, and has one encoding; right after
reset the word is 0. -/
def Obligations.StatReportsCounters : Prop :=
  (∀ w : Command, opField w = 0x01#8 → (decode w = .ok .stat ↔ w = 0x0100#16)) ∧
  (∃ t, exec .stat State.reset = .next t ∧ AnswersOK t 0#32) ∧
  ∀ s : State, s.WF → ∃ t d, exec .stat s = .next t ∧ SameEngine s t ∧ AnswersOK t d ∧
    d.toNat = s.SV.toNat * 2 ^ 24 + s.BLEN * 2 ^ 16 + s.KLEN ∧
    d.extractLsb' 25 7 = 0#7 ∧ d.getLsbD 24 = s.SV ∧ d.extractLsb' 20 4 = 0#4 ∧
    (d.extractLsb' 16 4).toNat = s.BLEN ∧ (d.extractLsb' 0 16).toNat = s.KLEN

/-! ### 10_state.md, 00_scope.md -/

/-- R16: the engine never traps or hangs: every step answers a next state, from every state, and every
command and every word leaves one response on the port. -/
def Obligations.EveryStepAnswersNext : Prop :=
  (∀ s : State, ∃ t, step s = .next t) ∧
  (∀ (i : Instr) (s : State), ∃ t r, exec i s = .next t ∧ t.rsp = some r) ∧
  ∀ (w : Command) (s : State), ∃ t r, runWord w s = .next t ∧ t.rsp = some r

/-- R22: nothing but a successful EXPAND writes S, and nothing but a successful EXPAND or reset changes SV. -/
def Obligations.OnlyExpandWritesTable : Prop :=
  ∀ s t : State, step s = .next t →
    (t.S ≠ s.S → ∃ rest, s.host = .command 0x1200#16 :: rest ∧ 4 ≤ s.KLEN ∧
      s.KLEN ≠ s.cfg.keyBytesMax + 1 ∧ t.SV = true) ∧
    (s.SV = false → t.SV = true → ∃ rest, s.host = .command 0x1200#16 :: rest ∧ 4 ≤ s.KLEN ∧
      s.KLEN ≠ s.cfg.keyBytesMax + 1) ∧
    (s.SV = true → t.SV = false → ∃ rest, s.host = .reset :: rest)

/-- R27 (with reset, R190): which moves write KLEN and BLEN, and what they become. -/
def Obligations.CountersMoveByTheirCommands : Prop :=
  ∀ s t : State, step s = .next t →
    ((∃ rest, s.host = .reset :: rest ∧ t.KLEN = 0) ∨
      (∃ rest, s.host = .command 0x1000#16 :: rest ∧ t.KLEN = 0) ∨
      (∃ imm8 rest, s.host = .command (encode (.kpush imm8)) :: rest ∧
        t.KLEN = min (s.KLEN + 1) (s.cfg.keyBytesMax + 1)) ∨
      t.KLEN = s.KLEN) ∧
    ((∃ rest, s.host = .reset :: rest ∧ t.BLEN = 0) ∨
      (∃ rest, s.host = .command 0x2000#16 :: rest ∧ t.BLEN = 0) ∨
      (∃ imm8 rest, s.host = .command (encode (.bpush imm8)) :: rest ∧ t.BLEN = min (s.BLEN + 1) 9) ∨
      t.BLEN = s.BLEN)

/-- R20's column "written by" for the two byte buffers, and R6: KEY changes only by KPUSH at index KLEN, BLK
only by BPUSH, ENC, DEC, ROTL and ROTR, and the capacity never. -/
def Obligations.BuffersWrittenByTheirCommands : Prop :=
  ∀ s t : State, s.KEY.wf → s.BLK.wf → step s = .next t →
    t.cfg = s.cfg ∧
    (∀ a, t.KEY.read a ≠ s.KEY.read a →
      ∃ imm8 rest, s.host = .command (encode (.kpush imm8)) :: rest ∧ a = s.KLEN ∧ t.KEY.read a = imm8) ∧
    (∀ a, t.BLK.read a ≠ s.BLK.read a →
      ∃ i rest, s.host = .command (encode i) :: rest ∧
        ((∃ imm8, i = .bpush imm8 ∧ a = s.BLEN ∧ t.BLK.read a = imm8) ∨
          ((i = .enc ∨ i = .dec) ∧ a < 8) ∨ ((i = .rotl ∨ i = .rotr) ∧ a < 4)))

/-- The reset state meets the invariant and has no table (R30, R28). The contents of storage in it are the model's choice
(assumption 1), the capacity is R6's default (assumption 2). -/
def Obligations.ResetMeetsInvariant : Prop :=
  State.reset.Inv ∧ State.reset.SV = false

/-- R28: every step keeps the invariant: the counters and indices in range, both buffers canonical and
within their size, response codes 0 to 4 alone, and S one key's table whenever SV is set. -/
def Obligations.StepKeepsInvariant : Prop :=
  ∀ s t : State, s.Inv → step s = .next t → t.Inv

/-- R31, R32 (with R25, R24, R26): no command can observe storage that R30 leaves unspecified, nor A, B, i,
L, c, j or k. Two states that agree on what is visible answer alike and go on agreeing. -/
def Obligations.UnspecifiedStorageIsUnobservable : Prop :=
  ∀ s t s' : State, s.WF → t.WF → s.SameVisible t → step s = .next s' →
    ∃ t', step t = .next t' ∧ s'.SameVisible t'

/-! ### 60_exceptions.md -/

/-- R170: an error response changes no state at all, and the same command again gives the same error. That c
and the other transient registers count as state here is the model's reading (assumption 10). -/
def Obligations.ErrorChangesNoState : Prop :=
  ∀ (w : Command) (s t : State) (r : Response),
    runWord w s = .next t → t.rsp = some r → responseCode r ≠ 0x00#8 →
      SameEngine s t ∧ runWord w t = .next t

/-- R66, R171, R172, R174: which commands raise which error, when, and with what info word; codes 0x05 to
0xFF, and IllegalCommand by a legal command, never occur. -/
def Obligations.ErrorKindsByCommand : Prop :=
  ∀ (i : Instr) (s t : State) (r : Response), exec i s = .next t → t.rsp = some r →
    responseCode r = 0x00#8 ∨
    (responseCode r = 0x01#8 ∧ i = .expand ∧ s.KLEN < 4 ∧ (responseData r).toNat = s.KLEN) ∨
    (responseCode r = 0x02#8 ∧
      ((i = .enc ∨ i = .dec) ∧ responseData r ∈ [1#32, 2#32, 3#32] ∨
        (i = .rotl ∨ i = .rotr) ∧ responseData r = 1#32 ∨
        (∃ idx, i = .srd idx) ∧ responseData r ∈ [2#32, 4#32, 6#32] ∨
        (∃ idx, i = .brd idx) ∧ responseData r = 4#32) ∧
      ((responseData r).getLsbD 0 = true → s.BLEN ≠ 8) ∧
      ((responseData r).getLsbD 1 = true → s.SV = false) ∧
      ((responseData r).getLsbD 2 = true →
        (∃ idx, i = .srd idx ∧ 26 ≤ idx) ∨ (∃ idx, i = .brd idx ∧ min s.BLEN 8 ≤ idx))) ∨
    (responseCode r = 0x04#8 ∧ i = .expand ∧ s.KLEN = s.cfg.keyBytesMax + 1 ∧
      responseData r = BitVec.ofNat 32 s.cfg.keyBytesMax)

/-- R173, R64, R65: a word no row of the opcode map selects gets the IllegalCommand response with the word as
info, and nothing else of the engine changes. That a waiting response is taken first is assumption 5. -/
def Obligations.IllegalWordAnswersIllegalCommand : Prop :=
  ∀ (s : State) (w : Command) (rest : List HostMove),
    (∀ r ∈ opcodeTable, r.selects w = false) → s.host = .command w :: rest →
    ∃ t d, step s = .next t ∧ AnswersError t .illegalCommand d ∧ d.toNat = w.toNat ∧
      t = { s with host := rest, taken := s.taken ++ s.rsp.toList, rsp := t.rsp }

/-! ### 70_reset_and_hazards.md and the step -/

/-- R190, R191, R30: reset clears KLEN, BLEN and SV, discards a waiting response, erases no storage, and
leaves the engine as far as a host can see in the state of `State.reset`. That the storage keeps its contents is
the model's choice where R30 says "unspecified" (assumption 6). -/
def Obligations.ResetMoveReachesResetState : Prop :=
  (State.reset.KLEN = 0 ∧ State.reset.BLEN = 0 ∧ State.reset.SV = false ∧ State.reset.rsp = none) ∧
  ∀ (s : State) (rest : List HostMove), s.host = .reset :: rest →
    ∃ t, step s = .next t ∧ t.KLEN = 0 ∧ t.BLEN = 0 ∧ t.SV = false ∧ t.rsp = none ∧
      cmdReady t = true ∧ t.taken = s.taken ∧ t.host = rest ∧
      (∀ a, t.KEY.read a = s.KEY.read a) ∧ SameBlockBytes s t ∧ t.S = s.S ∧ SameWork s t ∧
      t.SameVisible { State.reset with cfg := s.cfg, host := rest, taken := s.taken }

/-- R192 and the vectors "Reset in the middle" of 95: with the counters and SV cleared, nothing loaded or
derived before can be reached. -/
def Obligations.NothingReachableAfterReset : Prop :=
  ∀ s : State,
    (∃ t, exec .stat (resetEngine s) = .next t ∧ AnswersOK t 0#32) ∧
    (∃ t, exec .enc (resetEngine s) = .next t ∧ AnswersError t .invalidInput 3#32) ∧
    (∃ t, exec .dec (resetEngine s) = .next t ∧ AnswersError t .invalidInput 3#32) ∧
    (∃ t, exec .rotl (resetEngine s) = .next t ∧ AnswersError t .invalidInput 1#32) ∧
    (∃ t, exec .rotr (resetEngine s) = .next t ∧ AnswersError t .invalidInput 1#32) ∧
    (∃ t, exec .expand (resetEngine s) = .next t ∧ AnswersError t .invalidKey 0#32) ∧
    (∀ idx, ∃ t d, exec (.srd idx) (resetEngine s) = .next t ∧ AnswersError t .invalidInput d) ∧
    (∀ idx, ∃ t, exec (.brd idx) (resetEngine s) = .next t ∧ AnswersError t .invalidInput 4#32)

/-- R195: with a table present, clearing or extending the key buffer, or an EXPAND that fails, keeps the
table; ENC then still encrypts with it. -/
def Obligations.TableDoesNotFollowKeyBuffer : Prop :=
  ∀ (s : State) (i : Instr), s.SV = true → s.BLEN = 8 →
    (i = .kclr ∨ (∃ imm8, i = .kpush imm8) ∨
      (i = .expand ∧ (s.KLEN < 4 ∨ s.KLEN = s.cfg.keyBytesMax + 1))) →
    ∃ t u, exec i s = .next t ∧ SameTable s t ∧ exec .enc t = .next u ∧
      (u.A, u.B) = encrypt s.S (s.BLK.read32 0) (s.BLK.read32 4) ∧ AnswersOK u 0#32

/-- R196: ENC, DEC, ROTL and ROTR keep BLEN at 8, so a BPUSH without BCLR is dropped, makes BLEN 9, and the
next ENC reports the wrong length; the result stays in BLK. -/
def Obligations.BlockBufferKeepsItsLength : Prop :=
  ∀ (s : State) (i : Instr) (imm8 : Byte), s.BLEN = 8 → s.SV = true →
    (i = .enc ∨ i = .dec ∨ i = .rotl ∨ i = .rotr) →
    ∃ t u v, exec i s = .next t ∧ t.BLEN = 8 ∧
      exec (.bpush imm8) t = .next u ∧ u.BLEN = 9 ∧ SameBlockBytes t u ∧
      exec .enc u = .next v ∧ AnswersError v .invalidInput 1#32

/-- R14, R46, R47, R50: a step whose next host move is a command word runs exactly the command it decodes to,
on the state with the move consumed and a waiting response handed over; `withFetchWord` makes any command
the very next one. The host's moves as a list and the response taken first are assumptions 4 and 5. -/
def Obligations.StepRunsDecodedCommand : Prop :=
  (∀ (s : State) (w : Command) (rest : List HostMove) (i : Instr),
    s.host = .command w :: rest → decode w = .ok i →
    step s = exec i { s with host := rest, rsp := none, taken := s.taken ++ s.rsp.toList }) ∧
  ∀ (s : State) (i : Instr), i.wellFormed = true →
    step (s.withFetchWord 16 (encode i).toNat) =
      exec i { s with rsp := none, taken := s.taken ++ s.rsp.toList }

/-- R46, R186: with no move pending the engine keeps all its state; a taken response is handed over once and
makes the engine ready. A step with no move pending is the model's (assumption 4). -/
def Obligations.IdleKeepsStateAndTakeHandsOver : Prop :=
  (∀ s : State, s.host = [] → step s = .next s) ∧
  ∀ (s : State) (rest : List HostMove), s.host = .take :: rest →
    ∃ t, step s = .next t ∧ t = { s with host := rest, rsp := t.rsp, taken := t.taken } ∧
      t.rsp = none ∧ cmdReady t = true ∧ rspValid t = false ∧
      (∀ r, s.rsp = some r → t.taken = s.taken ++ [r]) ∧ (s.rsp = none → t.taken = s.taken)
end

