-- ==== Sys2Proof/Laws/Bytes.lean ====
section
/-! SUPPORT. The bits of the words made from bytes and of the bytes made from words (rule R41). -/

namespace Sys2Proof.Machine

/-- Bit i of `be32`: it comes from the byte whose place it is. -/
theorem getLsbD_be32 (b0 b1 b2 b3 : Byte) (i : Nat) :
    (be32 b0 b1 b2 b3).getLsbD i =
      if i < 8 then b3.getLsbD i
      else if i < 16 then b2.getLsbD (i - 8)
      else if i < 24 then b1.getLsbD (i - 16)
      else b0.getLsbD (i - 24) := by
  unfold be32
  erw [BitVec.getLsbD_append, BitVec.getLsbD_append, BitVec.getLsbD_append]
  by_cases h1 : i < 8
  · simp [h1]
  · by_cases h2 : i < 16
    · simp [h1, h2, show i - 8 < 8 by omega]
    · by_cases h3 : i < 24
      · simp [h1, h2, h3, show ¬ i - 8 < 8 by omega, show i - 16 < 8 by omega,
          show i - 8 - 8 = i - 16 by omega]
      · simp [h1, h2, h3, show ¬ i - 8 < 8 by omega, show ¬ i - 8 - 8 < 8 by omega,
          show i - 8 - 8 - 8 = i - 24 by omega]

/-- The value of `be32` as a sum. -/
theorem toNat_be32 (b0 b1 b2 b3 : Byte) :
    (be32 b0 b1 b2 b3).toNat = ((b0.toNat * 2 ^ 8 + b1.toNat) * 2 ^ 8 + b2.toNat) * 2 ^ 8 + b3.toNat := by
  have h1 := b1.isLt
  have h2 := b2.isLt
  have h3 := b3.isLt
  unfold be32
  erw [BitVec.toNat_append, BitVec.toNat_append, BitVec.toNat_append]
  rw [← Nat.shiftLeft_add_eq_or_of_lt h3, ← Nat.shiftLeft_add_eq_or_of_lt h2,
    ← Nat.shiftLeft_add_eq_or_of_lt h1]
  simp only [Nat.shiftLeft_eq]

end Sys2Proof.Machine
end

