-- ==== Sys2Proof/Laws/KeySchedule.lean ====
section
/-! SUPPORT. The key schedule and the cipher, one equation or one small fact per function. -/

namespace Sys2Proof.Machine

theorem schedule_eq (L : List Word) : schedule L = mixTimes 78 (mixStart L) := by
  unfold schedule mixCount
  rfl

theorem encrypt_eq (S : Table) (A B : Word) :
    encrypt S A B = encLoop S loopIndices (add32 A (S.get 0)) (add32 B (S.get 1)) := by
  unfold encrypt
  rfl

theorem decrypt_eq (S : Table) (A B : Word) :
    decrypt S A B = (sub32 (decLoop S loopIndices.reverse A B).1 (S.get 0),
      sub32 (decLoop S loopIndices.reverse A B).2 (S.get 1)) := by
  unfold decrypt
  rfl

theorem mixTimes_succ (n : Nat) (m : Mix) : mixTimes (n + 1) m = mixstep (mixTimes n m) := rfl

@[simp] theorem mixstep_L_length (m : Mix) : (mixstep m).L.length = m.L.length := by
  simp [mixstep]

/-- The mix loop keeps the number of key words. -/
@[simp] theorem mixTimes_L_length (n : Nat) (m : Mix) : (mixTimes n m).L.length = m.L.length := by
  induction n with
  | zero => rfl
  | succ n ih => rw [mixTimes_succ, mixstep_L_length, ih]

@[simp] theorem schedule_L_length (L : List Word) : (schedule L).L.length = L.length := by
  rw [schedule_eq, mixTimes_L_length]
  rfl

/-- One key word per four bytes, and none for fewer. -/
theorem keyWords_cons (b0 b1 b2 b3 : Byte) (rest : List Byte) :
    keyWords (b0 :: b1 :: b2 :: b3 :: rest) = be32 b0 b1 b2 b3 :: keyWords rest := rfl

/-- `derive` is the schedule of the key words, when there is one. -/
theorem derive_eq (key : List Byte) :
    derive key = if (keyWords key).length = 0 then none else some (schedule (keyWords key)).S := rfl

/-- The encryption loop runs its indices one after another. -/
theorem encLoop_append (S : Table) (is js : List (Fin 26)) (A B : Word) :
    encLoop S (is ++ js) A B = encLoop S js (encLoop S is A B).1 (encLoop S is A B).2 := by
  induction is generalizing A B with
  | nil => rfl
  | cons i rest ih => simp [encLoop, ih]

/-- The decryption loop runs its indices one after another. -/
theorem decLoop_append (S : Table) (is js : List (Fin 26)) (A B : Word) :
    decLoop S (is ++ js) A B = decLoop S js (decLoop S is A B).1 (decLoop S is A B).2 := by
  induction is generalizing A B with
  | nil => rfl
  | cons i rest ih => simp [decLoop, ih]

end Sys2Proof.Machine
end

