-- ==== Sys2Proof/Laws/State.lean ====
section
/-! SUPPORT. One lemma per field per named update of the state: the host moves of `Machine/Port.lean`, and the
one thing both ways of ending a command change. -/

namespace Sys2Proof.Machine

variable (s : State) (w : Command)

@[simp] theorem takeResponse_cfg : (takeResponse s).cfg = s.cfg := rfl
@[simp] theorem takeResponse_KEY : (takeResponse s).KEY = s.KEY := rfl
@[simp] theorem takeResponse_KLEN : (takeResponse s).KLEN = s.KLEN := rfl
@[simp] theorem takeResponse_S : (takeResponse s).S = s.S := rfl
@[simp] theorem takeResponse_SV : (takeResponse s).SV = s.SV := rfl
@[simp] theorem takeResponse_BLK : (takeResponse s).BLK = s.BLK := rfl
@[simp] theorem takeResponse_BLEN : (takeResponse s).BLEN = s.BLEN := rfl
@[simp] theorem takeResponse_L : (takeResponse s).L = s.L := rfl
@[simp] theorem takeResponse_c : (takeResponse s).c = s.c := rfl
@[simp] theorem takeResponse_A : (takeResponse s).A = s.A := rfl
@[simp] theorem takeResponse_B : (takeResponse s).B = s.B := rfl
@[simp] theorem takeResponse_i : (takeResponse s).i = s.i := rfl
@[simp] theorem takeResponse_j : (takeResponse s).j = s.j := rfl
@[simp] theorem takeResponse_k : (takeResponse s).k = s.k := rfl
@[simp] theorem takeResponse_rsp : (takeResponse s).rsp = none := rfl
@[simp] theorem takeResponse_host : (takeResponse s).host = s.host := rfl
@[simp] theorem takeResponse_taken : (takeResponse s).taken = s.taken ++ s.rsp.toList := rfl

@[simp] theorem resetEngine_cfg : (resetEngine s).cfg = s.cfg := rfl
@[simp] theorem resetEngine_KEY : (resetEngine s).KEY = s.KEY := rfl
@[simp] theorem resetEngine_KLEN : (resetEngine s).KLEN = 0 := rfl
@[simp] theorem resetEngine_S : (resetEngine s).S = s.S := rfl
@[simp] theorem resetEngine_SV : (resetEngine s).SV = false := rfl
@[simp] theorem resetEngine_BLK : (resetEngine s).BLK = s.BLK := rfl
@[simp] theorem resetEngine_BLEN : (resetEngine s).BLEN = 0 := rfl
@[simp] theorem resetEngine_L : (resetEngine s).L = s.L := rfl
@[simp] theorem resetEngine_c : (resetEngine s).c = s.c := rfl
@[simp] theorem resetEngine_A : (resetEngine s).A = s.A := rfl
@[simp] theorem resetEngine_B : (resetEngine s).B = s.B := rfl
@[simp] theorem resetEngine_i : (resetEngine s).i = s.i := rfl
@[simp] theorem resetEngine_j : (resetEngine s).j = s.j := rfl
@[simp] theorem resetEngine_k : (resetEngine s).k = s.k := rfl
@[simp] theorem resetEngine_rsp : (resetEngine s).rsp = none := rfl
@[simp] theorem resetEngine_host : (resetEngine s).host = s.host := rfl
@[simp] theorem resetEngine_taken : (resetEngine s).taken = s.taken := rfl

@[simp] theorem placeCommand_cfg : (placeCommand w s).cfg = s.cfg := rfl
@[simp] theorem placeCommand_KEY : (placeCommand w s).KEY = s.KEY := rfl
@[simp] theorem placeCommand_KLEN : (placeCommand w s).KLEN = s.KLEN := rfl
@[simp] theorem placeCommand_S : (placeCommand w s).S = s.S := rfl
@[simp] theorem placeCommand_SV : (placeCommand w s).SV = s.SV := rfl
@[simp] theorem placeCommand_BLK : (placeCommand w s).BLK = s.BLK := rfl
@[simp] theorem placeCommand_BLEN : (placeCommand w s).BLEN = s.BLEN := rfl
@[simp] theorem placeCommand_L : (placeCommand w s).L = s.L := rfl
@[simp] theorem placeCommand_c : (placeCommand w s).c = s.c := rfl
@[simp] theorem placeCommand_A : (placeCommand w s).A = s.A := rfl
@[simp] theorem placeCommand_B : (placeCommand w s).B = s.B := rfl
@[simp] theorem placeCommand_i : (placeCommand w s).i = s.i := rfl
@[simp] theorem placeCommand_j : (placeCommand w s).j = s.j := rfl
@[simp] theorem placeCommand_k : (placeCommand w s).k = s.k := rfl
@[simp] theorem placeCommand_rsp : (placeCommand w s).rsp = s.rsp := rfl
@[simp] theorem placeCommand_host : (placeCommand w s).host = .command w :: s.host := rfl
@[simp] theorem placeCommand_taken : (placeCommand w s).taken = s.taken := rfl

end Sys2Proof.Machine
end

