-- ==== Sys2Proof/Laws/WordOps.lean ====
section
/-! SUPPORT. The model's word operations in terms of core Lean's bit vectors, for proofs to cite instead of
unfolding. -/

namespace Sys2Proof.Machine

theorem rotamt_lt (s : Int) : rotamt s < 32 := by
  unfold rotamt
  omega

theorem rotamt_cast (s : Int) : ((rotamt s : Nat) : Int) = s % 32 := by
  unfold rotamt
  omega

@[simp] theorem rotamt_natCast (n : Nat) : rotamt (n : Int) = n % 32 := by
  unfold rotamt
  omega

theorem low5_eq (v : Word) : low5 v = v.toNat % 32 := by
  simp [low5, BitVec.extractLsb'_toNat]

theorem low5_lt (v : Word) : low5 v < 32 := by
  rw [low5_eq]
  omega

/-- Rotate left is core Lean's, by the normalized amount. -/
theorem rotl_eq (x : Word) (s : Int) : rotl x s = x.rotateLeft (rotamt s) := by
  have hlt := rotamt_lt s
  unfold rotl
  simp only [BitVec.rotateLeft, BitVec.rotateLeftAux, Nat.mod_eq_of_lt hlt]
  split
  · rename_i h
    have h32 : x >>> 32 = 0#32 := BitVec.ushiftRight_eq_zero (Nat.le_refl 32)
    rw [h, Nat.sub_zero, h32]
    simp
  · rfl

/-- Rotate right is core Lean's, by the normalized amount. -/
theorem rotr_eq (x : Word) (s : Int) : rotr x s = x.rotateRight (rotamt s) := by
  have hlt := rotamt_lt s
  unfold rotr
  simp only [BitVec.rotateRight, BitVec.rotateRightAux, Nat.mod_eq_of_lt hlt]
  split
  · rename_i h
    have h32 : x <<< 32 = 0#32 := BitVec.shiftLeft_eq_zero (Nat.le_refl 32)
    rw [h, Nat.sub_zero, h32]
    simp
  · rfl

/-- The rotate by a word's low five bits. -/
theorem rotl_low5 (x v : Word) : rotl x (low5 v) = x.rotateLeft (v.toNat % 32) := by
  rw [rotl_eq, rotamt_natCast, Nat.mod_eq_of_lt (low5_lt v), low5_eq]

/-- The rotate by a word's low five bits, to the right. -/
theorem rotr_low5 (x v : Word) : rotr x (low5 v) = x.rotateRight (v.toNat % 32) := by
  rw [rotr_eq, rotamt_natCast, Nat.mod_eq_of_lt (low5_lt v), low5_eq]

end Sys2Proof.Machine
end

