-- ==== Sys2Proof/Laws/Ops.lean ====
section
/-! SUPPORT. What a command, a word and a step can do, said once: each command either raises an error, which
changes the response port alone, or takes its own effect, under the condition its rule names. -/

namespace Sys2Proof.Machine

theorem respondOK_eq (d : Word) (s : State) :
    respondOK d s = .next { s with rsp := some (response okCode d) } := rfl

theorem raise_eq (e : ErrorKind) (info : Word) (s : State) :
    raise e info s = .next { s with rsp := some (response (errorCode e) info) } := rfl

@[simp] theorem responseCode_response (c : Byte) (d : Word) : responseCode (response c d) = c := by
  unfold responseCode response
  ext i hi
  simp only [BitVec.getElem_extractLsb', BitVec.getLsbD_append]
  simp [hi]

@[simp] theorem responseData_response (c : Byte) (d : Word) : responseData (response c d) = d := by
  unfold responseData response
  ext i hi
  simp only [BitVec.getElem_extractLsb', BitVec.getLsbD_append]
  simp [hi]

theorem rotateMask_eq_zero (s : State) : rotateMask s = 0 ↔ s.BLEN = 8 := by
  unfold rotateMask blockLengthBit
  split <;> simp_all

theorem cipherMask_eq_zero (s : State) : cipherMask s = 0 ↔ s.BLEN = 8 ∧ s.SV = true := by
  unfold cipherMask blockLengthBit noTableBit
  split <;> split <;> simp_all

theorem tableReadMask_eq_zero (s : State) (idx : Nat) :
    tableReadMask s idx = 0 ↔ s.SV = true ∧ idx < 26 := by
  unfold tableReadMask noTableBit indexBit tableIndexBad
  split <;> split <;> simp_all

theorem blockReadMask_eq_zero (s : State) (idx : Nat) :
    blockReadMask s idx = 0 ↔ idx < 8 ∧ idx < s.BLEN := by
  unfold blockReadMask indexBit blockIndexBad
  split <;> simp_all
  omega

/-- ROTL when it runs. -/
theorem execRotl_ok (s : State) (h : s.BLEN = 8) :
    execRotl s = respondOK (rotl (blockA s) (low5 (blockB s)))
      { s with A := rotl (blockA s) (low5 (blockB s)), B := blockB s,
               BLK := storeA s.BLK (rotl (blockA s) (low5 (blockB s))) } := by
  simp [execRotl, (rotateMask_eq_zero s).2 h]

/-- ROTL when the block is not 8 bytes. -/
theorem execRotl_error (s : State) (h : s.BLEN ≠ 8) :
    execRotl s = raise .invalidInput 1#32 s := by
  simp [execRotl, rotateMask, blockLengthBit, h]

/-- ROTR when it runs. -/
theorem execRotr_ok (s : State) (h : s.BLEN = 8) :
    execRotr s = respondOK (rotr (blockA s) (low5 (blockB s)))
      { s with A := rotr (blockA s) (low5 (blockB s)), B := blockB s,
               BLK := storeA s.BLK (rotr (blockA s) (low5 (blockB s))) } := by
  simp [execRotr, (rotateMask_eq_zero s).2 h]

/-- ROTR when the block is not 8 bytes. -/
theorem execRotr_error (s : State) (h : s.BLEN ≠ 8) :
    execRotr s = raise .invalidInput 1#32 s := by
  simp [execRotr, rotateMask, blockLengthBit, h]

end Sys2Proof.Machine
end

