-- ==== Sys2Proof/Laws/Commands.lean ====
section
/-! SUPPORT. The case analyses of EXPAND, ENC, DEC, SRD and BRD, of a command word and of a step. -/

namespace Sys2Proof.Machine

/-- The state EXPAND leaves, before its response. -/
def expanded (s : State) : State :=
  let m := schedule (keyWords (keyBytes s.KEY s.KLEN))
  { s with S := m.S, SV := true, L := m.L ++ s.L.drop (s.KLEN / 4), c := s.KLEN / 4, A := m.A, B := m.B,
           i := m.i, j := m.j, k := mixCount - 1 }

@[simp] theorem expanded_cfg (s : State) : (expanded s).cfg = s.cfg := rfl
@[simp] theorem expanded_KEY (s : State) : (expanded s).KEY = s.KEY := rfl
@[simp] theorem expanded_KLEN (s : State) : (expanded s).KLEN = s.KLEN := rfl
@[simp] theorem expanded_S (s : State) :
    (expanded s).S = (schedule (keyWords (keyBytes s.KEY s.KLEN))).S := rfl
@[simp] theorem expanded_SV (s : State) : (expanded s).SV = true := rfl
@[simp] theorem expanded_BLK (s : State) : (expanded s).BLK = s.BLK := rfl
@[simp] theorem expanded_BLEN (s : State) : (expanded s).BLEN = s.BLEN := rfl
@[simp] theorem expanded_L (s : State) :
    (expanded s).L = (schedule (keyWords (keyBytes s.KEY s.KLEN))).L ++ s.L.drop (s.KLEN / 4) := rfl
@[simp] theorem expanded_c (s : State) : (expanded s).c = s.KLEN / 4 := rfl
@[simp] theorem expanded_A (s : State) :
    (expanded s).A = (schedule (keyWords (keyBytes s.KEY s.KLEN))).A := rfl
@[simp] theorem expanded_B (s : State) :
    (expanded s).B = (schedule (keyWords (keyBytes s.KEY s.KLEN))).B := rfl
@[simp] theorem expanded_i (s : State) :
    (expanded s).i = (schedule (keyWords (keyBytes s.KEY s.KLEN))).i := rfl
@[simp] theorem expanded_j (s : State) :
    (expanded s).j = (schedule (keyWords (keyBytes s.KEY s.KLEN))).j := rfl
@[simp] theorem expanded_k (s : State) : (expanded s).k = 77 := rfl
@[simp] theorem expanded_rsp (s : State) : (expanded s).rsp = s.rsp := rfl
@[simp] theorem expanded_host (s : State) : (expanded s).host = s.host := rfl
@[simp] theorem expanded_taken (s : State) : (expanded s).taken = s.taken := rfl

/-- EXPAND when it runs. -/
theorem execExpand_ok (s : State) (h : s.KLEN ≠ s.cfg.keyBytesMax + 1) (h4 : 4 ≤ s.KLEN) :
    execExpand s = respondOK (expandWord s.KLEN) (expanded s) := by
  have hc : ¬ s.KLEN / 4 = 0 := by omega
  simp only [execExpand, if_neg h, if_neg hc, expanded]

/-- EXPAND on a key that is too long. -/
theorem execExpand_overflow (s : State) (h : s.KLEN = s.cfg.keyBytesMax + 1) :
    execExpand s = raise .keyOverflow (BitVec.ofNat 32 s.cfg.keyBytesMax) s := by
  simp [execExpand, h]

/-- EXPAND on a key without a whole word. -/
theorem execExpand_invalid (s : State) (h : s.KLEN ≠ s.cfg.keyBytesMax + 1) (h4 : s.KLEN < 4) :
    execExpand s = raise .invalidKey (BitVec.ofNat 32 s.KLEN) s := by
  have hc : s.KLEN / 4 = 0 := by omega
  simp only [execExpand, if_neg h, if_pos hc]

/-- The three outcomes of EXPAND. -/
theorem execExpand_cases (s : State) :
    (s.KLEN = s.cfg.keyBytesMax + 1 ∧
      execExpand s = raise .keyOverflow (BitVec.ofNat 32 s.cfg.keyBytesMax) s) ∨
    (s.KLEN ≠ s.cfg.keyBytesMax + 1 ∧ s.KLEN < 4 ∧
      execExpand s = raise .invalidKey (BitVec.ofNat 32 s.KLEN) s) ∨
    (s.KLEN ≠ s.cfg.keyBytesMax + 1 ∧ 4 ≤ s.KLEN ∧
      execExpand s = respondOK (expandWord s.KLEN) (expanded s)) := by
  by_cases h : s.KLEN = s.cfg.keyBytesMax + 1
  · exact .inl ⟨h, execExpand_overflow s h⟩
  · by_cases h4 : s.KLEN < 4
    · exact .inr (.inl ⟨h, h4, execExpand_invalid s h h4⟩)
    · exact .inr (.inr ⟨h, by omega, execExpand_ok s h (by omega)⟩)

/-- The state ENC and DEC leave, before the response, for the words they write. -/
def ciphered (s : State) (i : Fin 26) (p : Word × Word) : State :=
  { s with A := p.1, B := p.2, i := i, BLK := storeAB s.BLK p.1 p.2 }

@[simp] theorem ciphered_cfg (s : State) (n : Fin 26) (p : Word × Word) : (ciphered s n p).cfg = s.cfg := rfl
@[simp] theorem ciphered_KEY (s : State) (n : Fin 26) (p : Word × Word) : (ciphered s n p).KEY = s.KEY := rfl
@[simp] theorem ciphered_KLEN (s : State) (n : Fin 26) (p : Word × Word) :
    (ciphered s n p).KLEN = s.KLEN := rfl
@[simp] theorem ciphered_S (s : State) (n : Fin 26) (p : Word × Word) : (ciphered s n p).S = s.S := rfl
@[simp] theorem ciphered_SV (s : State) (n : Fin 26) (p : Word × Word) : (ciphered s n p).SV = s.SV := rfl
@[simp] theorem ciphered_BLK (s : State) (n : Fin 26) (p : Word × Word) :
    (ciphered s n p).BLK = storeAB s.BLK p.1 p.2 := rfl
@[simp] theorem ciphered_BLEN (s : State) (n : Fin 26) (p : Word × Word) :
    (ciphered s n p).BLEN = s.BLEN := rfl
@[simp] theorem ciphered_L (s : State) (n : Fin 26) (p : Word × Word) : (ciphered s n p).L = s.L := rfl
@[simp] theorem ciphered_c (s : State) (n : Fin 26) (p : Word × Word) : (ciphered s n p).c = s.c := rfl
@[simp] theorem ciphered_A (s : State) (n : Fin 26) (p : Word × Word) : (ciphered s n p).A = p.1 := rfl
@[simp] theorem ciphered_B (s : State) (n : Fin 26) (p : Word × Word) : (ciphered s n p).B = p.2 := rfl
@[simp] theorem ciphered_i (s : State) (n : Fin 26) (p : Word × Word) : (ciphered s n p).i = n := rfl
@[simp] theorem ciphered_j (s : State) (n : Fin 26) (p : Word × Word) : (ciphered s n p).j = s.j := rfl
@[simp] theorem ciphered_k (s : State) (n : Fin 26) (p : Word × Word) : (ciphered s n p).k = s.k := rfl
@[simp] theorem ciphered_rsp (s : State) (n : Fin 26) (p : Word × Word) : (ciphered s n p).rsp = s.rsp := rfl
@[simp] theorem ciphered_host (s : State) (n : Fin 26) (p : Word × Word) :
    (ciphered s n p).host = s.host := rfl
@[simp] theorem ciphered_taken (s : State) (n : Fin 26) (p : Word × Word) :
    (ciphered s n p).taken = s.taken := rfl

/-- ENC when it runs. -/
theorem execEnc_ok (s : State) (h : s.BLEN = 8) (hv : s.SV = true) :
    execEnc s = respondOK 0#32 (ciphered s 11 (encrypt s.S (blockA s) (blockB s))) := by
  simp [execEnc, (cipherMask_eq_zero s).2 ⟨h, hv⟩, ciphered]

/-- DEC when it runs. -/
theorem execDec_ok (s : State) (h : s.BLEN = 8) (hv : s.SV = true) :
    execDec s = respondOK 0#32 (ciphered s 1 (decrypt s.S (blockA s) (blockB s))) := by
  simp [execDec, (cipherMask_eq_zero s).2 ⟨h, hv⟩, ciphered]

/-- ENC when a precondition fails. -/
theorem execEnc_error (s : State) (h : s.BLEN ≠ 8 ∨ s.SV = false) :
    execEnc s = raise .invalidInput (BitVec.ofNat 32 (cipherMask s)) s := by
  have : cipherMask s ≠ 0 := fun h0 => by
    obtain ⟨h8, hv⟩ := (cipherMask_eq_zero s).1 h0
    rcases h with h | h
    · exact h h8
    · simp [h] at hv
  simp [execEnc, this]

/-- DEC when a precondition fails. -/
theorem execDec_error (s : State) (h : s.BLEN ≠ 8 ∨ s.SV = false) :
    execDec s = raise .invalidInput (BitVec.ofNat 32 (cipherMask s)) s := by
  have : cipherMask s ≠ 0 := fun h0 => by
    obtain ⟨h8, hv⟩ := (cipherMask_eq_zero s).1 h0
    rcases h with h | h
    · exact h h8
    · simp [h] at hv
  simp [execDec, this]

/-- The outcomes of ROTL, ROTR, ENC and DEC split on one condition each. -/
theorem cipher_ready_or_not (s : State) : (s.BLEN = 8 ∧ s.SV = true) ∨ (s.BLEN ≠ 8 ∨ s.SV = false) := by
  by_cases h : s.BLEN = 8 <;> cases hv : s.SV <;> simp [h]

/-- SRD when it runs. -/
theorem execSrd_ok (s : State) (idx : Nat) (hv : s.SV = true) (h : idx < 26) :
    execSrd idx s = respondOK (tableRead s.S idx) s := by
  simp [execSrd, (tableReadMask_eq_zero s idx).2 ⟨hv, h⟩]

/-- SRD when a precondition fails. -/
theorem execSrd_error (s : State) (idx : Nat) (h : s.SV = false ∨ 26 ≤ idx) :
    execSrd idx s = raise .invalidInput (BitVec.ofNat 32 (tableReadMask s idx)) s := by
  have : tableReadMask s idx ≠ 0 := fun h0 => by
    obtain ⟨hv, hlt⟩ := (tableReadMask_eq_zero s idx).1 h0
    rcases h with h | h
    · simp [h] at hv
    · omega
  simp [execSrd, this]

/-- BRD when it runs. -/
theorem execBrd_ok (s : State) (idx : Nat) (h8 : idx < 8) (h : idx < s.BLEN) :
    execBrd idx s = respondOK ((s.BLK.read idx).setWidth 32) s := by
  simp [execBrd, (blockReadMask_eq_zero s idx).2 ⟨h8, h⟩]

/-- BRD on an index out of range. -/
theorem execBrd_error (s : State) (idx : Nat) (h : 8 ≤ idx ∨ s.BLEN ≤ idx) :
    execBrd idx s = raise .invalidInput 4#32 s := by
  have : blockIndexBad idx s.BLEN = true := by
    unfold blockIndexBad
    rcases h with h | h <;> simp [h]
  simp [execBrd, blockReadMask, indexBit, this]

/-- What a command word does: its command, or the IllegalCommand response. -/
theorem runWord_cases (w : Command) (s : State) :
    (∃ i, decode w = .ok i ∧ runWord w s = exec i s) ∨
    (∃ e, decode w = .error e ∧ runWord w s = raise .illegalCommand (w.setWidth 32) s) := by
  unfold runWord
  cases h : decode w with
  | ok i => exact .inl ⟨i, rfl, rfl⟩
  | error e => exact .inr ⟨e, rfl, rfl⟩

/-- What a step does, by the host's next move. -/
theorem step_cases (s t : State) (h : step s = .next t) :
    (s.host = [] ∧ t = s) ∨
    (∃ rest, s.host = .take :: rest ∧ t = takeResponse { s with host := rest }) ∨
    (∃ rest, s.host = .reset :: rest ∧ t = resetEngine { s with host := rest }) ∨
    (∃ w rest, s.host = .command w :: rest ∧
      runWord w (takeResponse { s with host := rest }) = .next t) := by
  unfold step at h
  split at h
  · rename_i hh
    exact .inl ⟨hh, by simpa using h.symm⟩
  · rename_i w rest hh
    exact .inr (.inr (.inr ⟨w, rest, hh, h⟩))
  · rename_i rest hh
    exact .inr (.inl ⟨rest, hh, by simpa using h.symm⟩)
  · rename_i rest hh
    exact .inr (.inr (.inl ⟨rest, hh, by simpa using h.symm⟩))

end Sys2Proof.Machine
end

