-- ==== Sys2Proof/Laws/Effect.lean ====
section
/-! SUPPORT. The inversion of `exec`: if it answers a next state, that state is an error response on the state
as it was, or the command's own effect under the condition its rule names. Proofs over all commands
cite `exec_effect` instead of unfolding the meanings. -/

namespace Sys2Proof.Machine

/-- The state with a response put on the port. -/
def answered (s : State) (r : Response) : State :=
  { s with rsp := some r }

/-- The state ROTL and ROTR leave, before the response, for the word they write. -/
def rotated (s : State) (a : Word) : State :=
  { s with A := a, B := blockB s, BLK := storeA s.BLK a }

/-- The state KPUSH leaves, before the response. -/
def keyPushed (s : State) (imm8 : Byte) : State :=
  { s with KEY := if s.KLEN < s.cfg.keyBytesMax then s.KEY.write s.KLEN imm8 else s.KEY,
           KLEN := klenPushed s.cfg.keyBytesMax s.KLEN }

/-- The state BPUSH leaves, before the response. -/
def blockPushed (s : State) (imm8 : Byte) : State :=
  { s with BLK := if s.BLEN < 8 then s.BLK.write s.BLEN imm8 else s.BLK, BLEN := blenPushed s.BLEN }

@[simp] theorem answered_cfg (s : State) (r : Response) : (answered s r).cfg = s.cfg := rfl
@[simp] theorem answered_KEY (s : State) (r : Response) : (answered s r).KEY = s.KEY := rfl
@[simp] theorem answered_KLEN (s : State) (r : Response) : (answered s r).KLEN = s.KLEN := rfl
@[simp] theorem answered_S (s : State) (r : Response) : (answered s r).S = s.S := rfl
@[simp] theorem answered_SV (s : State) (r : Response) : (answered s r).SV = s.SV := rfl
@[simp] theorem answered_BLK (s : State) (r : Response) : (answered s r).BLK = s.BLK := rfl
@[simp] theorem answered_BLEN (s : State) (r : Response) : (answered s r).BLEN = s.BLEN := rfl
@[simp] theorem answered_L (s : State) (r : Response) : (answered s r).L = s.L := rfl
@[simp] theorem answered_c (s : State) (r : Response) : (answered s r).c = s.c := rfl
@[simp] theorem answered_A (s : State) (r : Response) : (answered s r).A = s.A := rfl
@[simp] theorem answered_B (s : State) (r : Response) : (answered s r).B = s.B := rfl
@[simp] theorem answered_i (s : State) (r : Response) : (answered s r).i = s.i := rfl
@[simp] theorem answered_j (s : State) (r : Response) : (answered s r).j = s.j := rfl
@[simp] theorem answered_k (s : State) (r : Response) : (answered s r).k = s.k := rfl
@[simp] theorem answered_rsp (s : State) (r : Response) : (answered s r).rsp = some r := rfl
@[simp] theorem answered_host (s : State) (r : Response) : (answered s r).host = s.host := rfl
@[simp] theorem answered_taken (s : State) (r : Response) : (answered s r).taken = s.taken := rfl

@[simp] theorem rotated_cfg (s : State) (a : Word) : (rotated s a).cfg = s.cfg := rfl
@[simp] theorem rotated_KEY (s : State) (a : Word) : (rotated s a).KEY = s.KEY := rfl
@[simp] theorem rotated_KLEN (s : State) (a : Word) : (rotated s a).KLEN = s.KLEN := rfl
@[simp] theorem rotated_S (s : State) (a : Word) : (rotated s a).S = s.S := rfl
@[simp] theorem rotated_SV (s : State) (a : Word) : (rotated s a).SV = s.SV := rfl
@[simp] theorem rotated_BLK (s : State) (a : Word) : (rotated s a).BLK = storeA s.BLK a := rfl
@[simp] theorem rotated_BLEN (s : State) (a : Word) : (rotated s a).BLEN = s.BLEN := rfl
@[simp] theorem rotated_L (s : State) (a : Word) : (rotated s a).L = s.L := rfl
@[simp] theorem rotated_c (s : State) (a : Word) : (rotated s a).c = s.c := rfl
@[simp] theorem rotated_A (s : State) (a : Word) : (rotated s a).A = a := rfl
@[simp] theorem rotated_B (s : State) (a : Word) : (rotated s a).B = blockB s := rfl
@[simp] theorem rotated_i (s : State) (a : Word) : (rotated s a).i = s.i := rfl
@[simp] theorem rotated_j (s : State) (a : Word) : (rotated s a).j = s.j := rfl
@[simp] theorem rotated_k (s : State) (a : Word) : (rotated s a).k = s.k := rfl
@[simp] theorem rotated_rsp (s : State) (a : Word) : (rotated s a).rsp = s.rsp := rfl
@[simp] theorem rotated_host (s : State) (a : Word) : (rotated s a).host = s.host := rfl
@[simp] theorem rotated_taken (s : State) (a : Word) : (rotated s a).taken = s.taken := rfl

@[simp] theorem keyPushed_cfg (s : State) (b : Byte) : (keyPushed s b).cfg = s.cfg := rfl
@[simp] theorem keyPushed_KEY (s : State) (b : Byte) :
    (keyPushed s b).KEY = if s.KLEN < s.cfg.keyBytesMax then s.KEY.write s.KLEN b else s.KEY := rfl
@[simp] theorem keyPushed_KLEN (s : State) (b : Byte) :
    (keyPushed s b).KLEN = klenPushed s.cfg.keyBytesMax s.KLEN := rfl
@[simp] theorem keyPushed_S (s : State) (b : Byte) : (keyPushed s b).S = s.S := rfl
@[simp] theorem keyPushed_SV (s : State) (b : Byte) : (keyPushed s b).SV = s.SV := rfl
@[simp] theorem keyPushed_BLK (s : State) (b : Byte) : (keyPushed s b).BLK = s.BLK := rfl
@[simp] theorem keyPushed_BLEN (s : State) (b : Byte) : (keyPushed s b).BLEN = s.BLEN := rfl
@[simp] theorem keyPushed_L (s : State) (b : Byte) : (keyPushed s b).L = s.L := rfl
@[simp] theorem keyPushed_c (s : State) (b : Byte) : (keyPushed s b).c = s.c := rfl
@[simp] theorem keyPushed_A (s : State) (b : Byte) : (keyPushed s b).A = s.A := rfl
@[simp] theorem keyPushed_B (s : State) (b : Byte) : (keyPushed s b).B = s.B := rfl
@[simp] theorem keyPushed_i (s : State) (b : Byte) : (keyPushed s b).i = s.i := rfl
@[simp] theorem keyPushed_j (s : State) (b : Byte) : (keyPushed s b).j = s.j := rfl
@[simp] theorem keyPushed_k (s : State) (b : Byte) : (keyPushed s b).k = s.k := rfl
@[simp] theorem keyPushed_rsp (s : State) (b : Byte) : (keyPushed s b).rsp = s.rsp := rfl
@[simp] theorem keyPushed_host (s : State) (b : Byte) : (keyPushed s b).host = s.host := rfl
@[simp] theorem keyPushed_taken (s : State) (b : Byte) : (keyPushed s b).taken = s.taken := rfl

@[simp] theorem blockPushed_cfg (s : State) (b : Byte) : (blockPushed s b).cfg = s.cfg := rfl
@[simp] theorem blockPushed_KEY (s : State) (b : Byte) : (blockPushed s b).KEY = s.KEY := rfl
@[simp] theorem blockPushed_KLEN (s : State) (b : Byte) : (blockPushed s b).KLEN = s.KLEN := rfl
@[simp] theorem blockPushed_S (s : State) (b : Byte) : (blockPushed s b).S = s.S := rfl
@[simp] theorem blockPushed_SV (s : State) (b : Byte) : (blockPushed s b).SV = s.SV := rfl
@[simp] theorem blockPushed_BLK (s : State) (b : Byte) :
    (blockPushed s b).BLK = if s.BLEN < 8 then s.BLK.write s.BLEN b else s.BLK := rfl
@[simp] theorem blockPushed_BLEN (s : State) (b : Byte) : (blockPushed s b).BLEN = blenPushed s.BLEN := rfl
@[simp] theorem blockPushed_L (s : State) (b : Byte) : (blockPushed s b).L = s.L := rfl
@[simp] theorem blockPushed_c (s : State) (b : Byte) : (blockPushed s b).c = s.c := rfl
@[simp] theorem blockPushed_A (s : State) (b : Byte) : (blockPushed s b).A = s.A := rfl
@[simp] theorem blockPushed_B (s : State) (b : Byte) : (blockPushed s b).B = s.B := rfl
@[simp] theorem blockPushed_i (s : State) (b : Byte) : (blockPushed s b).i = s.i := rfl
@[simp] theorem blockPushed_j (s : State) (b : Byte) : (blockPushed s b).j = s.j := rfl
@[simp] theorem blockPushed_k (s : State) (b : Byte) : (blockPushed s b).k = s.k := rfl
@[simp] theorem blockPushed_rsp (s : State) (b : Byte) : (blockPushed s b).rsp = s.rsp := rfl
@[simp] theorem blockPushed_host (s : State) (b : Byte) : (blockPushed s b).host = s.host := rfl
@[simp] theorem blockPushed_taken (s : State) (b : Byte) : (blockPushed s b).taken = s.taken := rfl

/-- What a command can leave. -/
inductive Effect (s : State) : Instr → State → Prop where
  /-- EXPAND on a key that is too long. -/
  | overflow (h : s.KLEN = s.cfg.keyBytesMax + 1) :
      Effect s .expand
        (answered s (response (errorCode .keyOverflow) (BitVec.ofNat 32 s.cfg.keyBytesMax)))
  /-- EXPAND on a key without a whole word. -/
  | invalidKey (h : s.KLEN ≠ s.cfg.keyBytesMax + 1) (h4 : s.KLEN < 4) :
      Effect s .expand (answered s (response (errorCode .invalidKey) (BitVec.ofNat 32 s.KLEN)))
  /-- ENC or DEC without 8 bytes or without a table. -/
  | cipherError (i : Instr) (hi : i = .enc ∨ i = .dec) (h : s.BLEN ≠ 8 ∨ s.SV = false) :
      Effect s i (answered s (response (errorCode .invalidInput) (BitVec.ofNat 32 (cipherMask s))))
  /-- ROTL or ROTR without 8 bytes. -/
  | rotateError (i : Instr) (hi : i = .rotl ∨ i = .rotr) (h : s.BLEN ≠ 8) :
      Effect s i (answered s (response (errorCode .invalidInput) 1#32))
  /-- SRD without a table or with an index out of range. -/
  | srdError (idx : Nat) (h : s.SV = false ∨ 26 ≤ idx) :
      Effect s (.srd idx)
        (answered s (response (errorCode .invalidInput) (BitVec.ofNat 32 (tableReadMask s idx))))
  /-- BRD with an index out of range. -/
  | brdError (idx : Nat) (h : 8 ≤ idx ∨ s.BLEN ≤ idx) :
      Effect s (.brd idx) (answered s (response (errorCode .invalidInput) 4#32))
  | stat : Effect s .stat (answered s (response okCode (statusWord s)))
  | kclr : Effect s .kclr (answered { s with KLEN := 0 } (response okCode 0#32))
  | kpush (imm8 : Byte) :
      Effect s (.kpush imm8) (answered (keyPushed s imm8)
        (response okCode (BitVec.ofNat 32 (klenPushed s.cfg.keyBytesMax s.KLEN))))
  | expand (h : s.KLEN ≠ s.cfg.keyBytesMax + 1) (h4 : 4 ≤ s.KLEN) :
      Effect s .expand (answered (expanded s) (response okCode (expandWord s.KLEN)))
  | srd (idx : Nat) (hv : s.SV = true) (h : idx < 26) :
      Effect s (.srd idx) (answered s (response okCode (tableRead s.S idx)))
  | bclr : Effect s .bclr (answered { s with BLEN := 0 } (response okCode 0#32))
  | bpush (imm8 : Byte) :
      Effect s (.bpush imm8) (answered (blockPushed s imm8)
        (response okCode (BitVec.ofNat 32 (blenPushed s.BLEN))))
  | brd (idx : Nat) (h8 : idx < 8) (h : idx < s.BLEN) :
      Effect s (.brd idx) (answered s (response okCode ((s.BLK.read idx).setWidth 32)))
  | enc (h : s.BLEN = 8) (hv : s.SV = true) :
      Effect s .enc (answered (ciphered s 11 (encrypt s.S (blockA s) (blockB s))) (response okCode 0#32))
  | dec (h : s.BLEN = 8) (hv : s.SV = true) :
      Effect s .dec (answered (ciphered s 1 (decrypt s.S (blockA s) (blockB s))) (response okCode 0#32))
  | rotl (h : s.BLEN = 8) :
      Effect s .rotl (answered (rotated s (Machine.rotl (blockA s) (low5 (blockB s))))
        (response okCode (Machine.rotl (blockA s) (low5 (blockB s)))))
  | rotr (h : s.BLEN = 8) :
      Effect s .rotr (answered (rotated s (Machine.rotr (blockA s) (low5 (blockB s))))
        (response okCode (Machine.rotr (blockA s) (low5 (blockB s)))))

/-- The next state of an answer that is known twice is one state. -/
theorem next_unique {r : Result} {t u : State} (h : r = .next t) (h' : r = .next u) : t = u :=
  Host.Outcome.next.inj (h.symm.trans h')

/-- The inversion of `exec`. -/
theorem exec_effect (i : Instr) (s t : State) (h : exec i s = .next t) : Effect s i t := by
  cases i with
  | stat => exact next_unique rfl h ▸ .stat
  | kclr => exact next_unique rfl h ▸ .kclr
  | kpush imm8 => exact next_unique rfl h ▸ .kpush imm8
  | bclr => exact next_unique rfl h ▸ .bclr
  | bpush imm8 => exact next_unique rfl h ▸ .bpush imm8
  | expand =>
    rcases execExpand_cases s with ⟨hk, he⟩ | ⟨hk, h4, he⟩ | ⟨hk, h4, he⟩
    · exact next_unique he h ▸ .overflow hk
    · exact next_unique he h ▸ .invalidKey hk h4
    · exact next_unique he h ▸ .expand hk h4
  | srd idx =>
    by_cases hi : 26 ≤ idx
    · exact next_unique (execSrd_error s idx (.inr hi)) h ▸ .srdError idx (.inr hi)
    · cases hv : s.SV with
      | false => exact next_unique (execSrd_error s idx (.inl hv)) h ▸ .srdError idx (.inl hv)
      | true => exact next_unique (execSrd_ok s idx hv (by omega)) h ▸ .srd idx hv (by omega)
  | brd idx =>
    by_cases hi : 8 ≤ idx ∨ s.BLEN ≤ idx
    · exact next_unique (execBrd_error s idx hi) h ▸ .brdError idx hi
    · exact next_unique (execBrd_ok s idx (by omega) (by omega)) h ▸ .brd idx (by omega) (by omega)
  | enc =>
    rcases cipher_ready_or_not s with ⟨h8, hv⟩ | hn
    · exact next_unique (execEnc_ok s h8 hv) h ▸ .enc h8 hv
    · exact next_unique (execEnc_error s hn) h ▸ .cipherError .enc (.inl rfl) hn
  | dec =>
    rcases cipher_ready_or_not s with ⟨h8, hv⟩ | hn
    · exact next_unique (execDec_ok s h8 hv) h ▸ .dec h8 hv
    · exact next_unique (execDec_error s hn) h ▸ .cipherError .dec (.inr rfl) hn
  | rotl =>
    by_cases h8 : s.BLEN = 8
    · exact next_unique (execRotl_ok s h8) h ▸ .rotl h8
    · exact next_unique (execRotl_error s h8) h ▸ .rotateError .rotl (.inl rfl) h8
  | rotr =>
    by_cases h8 : s.BLEN = 8
    · exact next_unique (execRotr_ok s h8) h ▸ .rotr h8
    · exact next_unique (execRotr_error s h8) h ▸ .rotateError .rotr (.inr rfl) h8

end Sys2Proof.Machine
end

