-- ==== Sys2Proof/Laws/Memory.lean ====
section
/-! SUPPORT. What reading, writing and the canonical form of a byte buffer have to do with each other. -/

namespace Sys2Proof.Machine

@[simp] theorem Memory.read_nil (a : Nat) : Memory.read [] a = unwrittenByte a := rfl

@[simp] theorem Memory.read_cons (k : Nat) (v : Byte) (m : Memory) (a : Nat) :
    Memory.read ((k, v) :: m) a = if k = a then v else Memory.read m a := rfl

theorem Memory.wf_nil : Memory.wf [] :=
  ⟨List.Pairwise.nil, fun _ h => nomatch h⟩

theorem Memory.wf_cons (k : Nat) (v : Byte) (m : Memory) :
    Memory.wf ((k, v) :: m) ↔ (∀ cell ∈ m, k < cell.1) ∧ v ≠ unwrittenByte k ∧ Memory.wf m := by
  simp only [Memory.wf, List.pairwise_cons, List.mem_cons, forall_eq_or_imp]
  tauto

/-- An address no cell lists reads as unwritten. -/
theorem Memory.read_unlisted (m : Memory) (a : Nat) (h : ∀ cell ∈ m, cell.1 ≠ a) :
    Memory.read m a = unwrittenByte a := by
  induction m with
  | nil => rfl
  | cons cell rest ih =>
    obtain ⟨k, v⟩ := cell
    have hk : k ≠ a := h (k, v) (by simp)
    simpa [hk] using ih fun c hc => h c (by simp [hc])

/-- The cells after a write are the cell written and cells of before. -/
theorem Memory.mem_write (m : Memory) (a : Nat) (v : Byte) (cell : Host.Cell)
    (h : cell ∈ Memory.write m a v) : cell = (a, v) ∧ v ≠ unwrittenByte a ∨ cell ∈ m := by
  induction m with
  | nil =>
    simp only [Memory.write] at h
    split at h <;> simp_all
  | cons c rest ih =>
    obtain ⟨k, x⟩ := c
    simp only [Memory.write] at h
    repeat' split at h
    all_goals simp only [List.mem_cons] at h ⊢
    all_goals tauto

/-- A write keeps the canonical form. -/
theorem Memory.wf_write (m : Memory) (a : Nat) (v : Byte) (h : Memory.wf m) :
    Memory.wf (Memory.write m a v) := by
  induction m with
  | nil =>
    simp only [Memory.write]
    split
    · exact h
    · exact (Memory.wf_cons a v []).2 ⟨by simp, by assumption, h⟩
  | cons c rest ih =>
    obtain ⟨k, x⟩ := c
    obtain ⟨hlt, hx, hrest⟩ := (Memory.wf_cons k x rest).1 h
    simp only [Memory.write]
    split
    · split
      · exact h
      · refine (Memory.wf_cons a v _).2 ⟨?_, by assumption, h⟩
        intro cell hc
        rcases List.mem_cons.1 hc with rfl | hc
        · assumption
        · exact Nat.lt_trans (by assumption) (hlt cell hc)
    · split
      · rename_i hak
        split
        · exact hrest
        · exact (Memory.wf_cons a v rest).2 ⟨hak ▸ hlt, by assumption, hrest⟩
      · refine (Memory.wf_cons k x _).2 ⟨?_, hx, ih hrest⟩
        intro cell hc
        rcases Memory.mem_write rest a v cell hc with ⟨rfl, _⟩ | hc
        · show k < a
          omega
        · exact hlt cell hc

/-- A write inside the buffer keeps every listed address inside it. -/
theorem Memory.within_write (m : Memory) (a n : Nat) (v : Byte) (h : Memory.within m n) (ha : a < n) :
    Memory.within (Memory.write m a v) n := by
  intro cell hc
  rcases Memory.mem_write m a v cell hc with ⟨rfl, _⟩ | hc
  · exact ha
  · exact h cell hc

/-- Reading after a write: the byte written at its address, the byte of before elsewhere. -/
theorem Memory.read_write (m : Memory) (a b : Nat) (v : Byte) (h : Memory.wf m) :
    Memory.read (Memory.write m a v) b = if b = a then v else Memory.read m b := by
  induction m with
  | nil =>
    simp only [Memory.write]
    split <;> by_cases hb : b = a <;> simp_all [eq_comm]
  | cons c rest ih =>
    obtain ⟨k, x⟩ := c
    obtain ⟨hlt, hx, hrest⟩ := (Memory.wf_cons k x rest).1 h
    have unlisted : ∀ a', a' ≤ k → Memory.read rest a' = unwrittenByte a' := fun a' ha' =>
      Memory.read_unlisted rest a' fun cell hc => by have := hlt cell hc; omega
    simp only [Memory.write]
    split
    · rename_i hak
      have hka : ¬ k = a := by omega
      split
      · rename_i hv
        by_cases hb : b = a
        · subst hb
          simp [hka, unlisted b (by omega), hv]
        · simp [hb]
      · by_cases hb : b = a
        · simp [hb]
        · have : ¬ a = b := fun e => hb e.symm
          simp [hb, this]
    · split
      · rename_i hak
        subst hak
        split
        · rename_i hv
          by_cases hb : b = a
          · subst hb
            simp [unlisted b (by omega), hv]
          · have : ¬ a = b := fun e => hb e.symm
            simp [hb, this]
        · by_cases hb : b = a
          · simp [hb]
          · have : ¬ a = b := fun e => hb e.symm
            simp [hb, this]
      · rename_i hka
        by_cases hb : b = a
        · subst hb
          have : ¬ k = b := fun e => hka e.symm
          simp [this, ih hrest]
        · simp [hb, ih hrest]

/-- Equal bytes make equal buffers: canonical buffers that read alike everywhere are the same data. -/
theorem Memory.ext_read (m n : Memory) (hm : Memory.wf m) (hn : Memory.wf n)
    (h : ∀ a, Memory.read m a = Memory.read n a) : m = n := by
  induction m generalizing n with
  | nil =>
    cases n with
    | nil => rfl
    | cons c rest =>
      obtain ⟨k, v⟩ := c
      have := h k
      have hv := ((Memory.wf_cons k v rest).1 hn).2.1
      simp at this
      exact absurd this.symm hv
  | cons c rest ih =>
    obtain ⟨k, v⟩ := c
    obtain ⟨hlt, hv, hrest⟩ := (Memory.wf_cons k v rest).1 hm
    cases n with
    | nil =>
      have := h k
      simp at this
      exact absurd this hv
    | cons c' rest' =>
      obtain ⟨k', v'⟩ := c'
      obtain ⟨hlt', hv', hrest'⟩ := (Memory.wf_cons k' v' rest').1 hn
      have read_low : ∀ a, a ≤ k → Memory.read rest a = unwrittenByte a := fun a ha =>
        Memory.read_unlisted rest a fun cell hc => by have := hlt cell hc; omega
      have read_low' : ∀ a, a ≤ k' → Memory.read rest' a = unwrittenByte a := fun a ha =>
        Memory.read_unlisted rest' a fun cell hc => by have := hlt' cell hc; omega
      have hk : k = k' := by
        by_contra hne
        rcases Nat.lt_or_gt_of_ne hne with hlt0 | hlt0
        · have := h k
          rw [Memory.read_cons, Memory.read_cons, if_pos rfl, if_neg (by omega), read_low' k (by omega)] at this
          exact hv this
        · have := h k'
          rw [Memory.read_cons, Memory.read_cons, if_pos rfl, if_neg (by omega), read_low k' (by omega)] at this
          exact hv' this.symm
      subst hk
      have hvv : v = v' := by simpa using h k
      subst hvv
      have tails : rest = rest' := by
        refine ih rest' hrest hrest' fun a => ?_
        by_cases ha : k = a
        · subst ha
          rw [read_low k (Nat.le_refl k), read_low' k (Nat.le_refl k)]
        · simpa [ha] using h a
      rw [tails]

/-- A word write keeps the canonical form. -/
theorem Memory.wf_write32 (m : Memory) (a : Nat) (v : Word) (h : Memory.wf m) :
    Memory.wf (Memory.write32 m a v) := by
  unfold Memory.write32
  exact Memory.wf_write _ _ _ (Memory.wf_write _ _ _ (Memory.wf_write _ _ _ (Memory.wf_write _ _ _ h)))

/-- A word write inside the buffer keeps every listed address inside it. -/
theorem Memory.within_write32 (m : Memory) (a n : Nat) (v : Word) (h : Memory.within m n) (ha : a + 3 < n) :
    Memory.within (Memory.write32 m a v) n := by
  unfold Memory.write32
  exact Memory.within_write _ _ _ _ (Memory.within_write _ _ _ _ (Memory.within_write _ _ _ _
    (Memory.within_write _ _ _ _ h (by omega)) (by omega)) (by omega)) ha

/-- Reading a byte after a word write: the word's bytes, most significant first, and elsewhere the byte of
before. -/
theorem Memory.read_write32 (m : Memory) (a b : Nat) (v : Word) (h : Memory.wf m) :
    Memory.read (Memory.write32 m a v) b =
      if b = a then (bytes4 v).1
      else if b = a + 1 then (bytes4 v).2.1
      else if b = a + 2 then (bytes4 v).2.2.1
      else if b = a + 3 then (bytes4 v).2.2.2
      else Memory.read m b := by
  have h1 := Memory.wf_write m a (bytes4 v).1 h
  have h2 := Memory.wf_write _ (a + 1) (bytes4 v).2.1 h1
  have h3 := Memory.wf_write _ (a + 2) (bytes4 v).2.2.1 h2
  unfold Memory.write32
  rw [Memory.read_write _ _ _ _ h3, Memory.read_write _ _ _ _ h2, Memory.read_write _ _ _ _ h1,
    Memory.read_write _ _ _ _ h]
  split_ifs <;> first | rfl | omega

/-- A word write leaves every address outside its four bytes alone. -/
theorem Memory.read_write32_outside (m : Memory) (a b : Nat) (v : Word) (h : Memory.wf m)
    (hb : b < a ∨ a + 4 ≤ b) : Memory.read (Memory.write32 m a v) b = Memory.read m b := by
  rw [Memory.read_write32 m a b v h]
  rw [if_neg (by omega), if_neg (by omega), if_neg (by omega), if_neg (by omega)]

/-- Storing A keeps the canonical form of BLK. -/
theorem wf_storeA (m : Memory) (a : Word) (h : Memory.wf m) : Memory.wf (storeA m a) :=
  Memory.wf_write32 m 0 a h

/-- Storing A and B keeps the canonical form of BLK. -/
theorem wf_storeAB (m : Memory) (a b : Word) (h : Memory.wf m) : Memory.wf (storeAB m a b) :=
  Memory.wf_write32 _ 4 b (Memory.wf_write32 m 0 a h)

/-- Storing A stays inside the 8 bytes of BLK. -/
theorem within_storeA (m : Memory) (a : Word) (h : Memory.within m 8) : Memory.within (storeA m a) 8 :=
  Memory.within_write32 m 0 8 a h (by omega)

/-- Storing A and B stays inside the 8 bytes of BLK. -/
theorem within_storeAB (m : Memory) (a b : Word) (h : Memory.within m 8) : Memory.within (storeAB m a b) 8 :=
  Memory.within_write32 _ 4 8 b (Memory.within_write32 m 0 8 a h (by omega)) (by omega)

/-- The byte at index n of the key. -/
theorem keyBytes_getElem? (m : Memory) (n k : Nat) (h : k < n) : (keyBytes m n)[k]? = some (m.read k) := by
  simp [keyBytes, h]

@[simp] theorem keyBytes_length (m : Memory) (n : Nat) : (keyBytes m n).length = n := by
  simp [keyBytes]

/-- The key depends only on the bytes below its length. -/
theorem keyBytes_congr (m m' : Memory) (n : Nat) (h : ∀ k, k < n → m.read k = m'.read k) :
    keyBytes m n = keyBytes m' n := by
  unfold keyBytes
  exact List.map_congr_left fun k hk => h k (List.mem_range.1 hk)

end Sys2Proof.Machine
end

