-- ==== Sys2Proof/Laws/PerInstr.lean ====
section
/-! SUPPORT. Facts stated instruction by instruction: the encoding of a command lies in its own row of the
opcode map, with its operand in the `arg` field (rules R60, R63). -/

namespace Sys2Proof.Laws.EncodesInItsRow

/-- The operand of an instruction as the `arg` field holds it. -/
def argument (i : Instr) : Nat :=
  match i with
  | .kpush imm8 => imm8.toNat
  | .bpush imm8 => imm8.toNat
  | .srd idx => idx
  | .brd idx => idx
  | _ => 0

/-- Some row of the opcode map names the instruction and selects its encoding, whose `arg` field holds the
operand. -/
def Statement (i : Instr) : Prop :=
  i.wellFormed = true →
    (∃ r ∈ opcodeTable, r.mnemonic = i.mnemonic ∧ r.selects (encode i) = true) ∧
    (argField (encode i)).toNat = argument i

theorem argField_append (op arg : Byte) : argField (op ++ arg) = arg := by
  unfold argField
  ext i hi
  simp only [BitVec.getElem_extractLsb', BitVec.getLsbD_append]
  simp [hi]

theorem opField_append (op arg : Byte) : opField (op ++ arg) = op := by
  unfold opField
  ext i hi
  simp only [BitVec.getElem_extractLsb', BitVec.getLsbD_append]
  simp [hi]

/-- A format B or X row selects every word of its opcode. -/
theorem selects_append (op arg : Byte) : (op ++ arg) &&& 0xFF00#16 = op ++ 0#8 := by
  have h : ∀ i, i < 16 → (0xFF00#16).getLsbD i = !decide (i < 8) := by decide
  refine BitVec.eq_of_getLsbD_eq fun i hi => ?_
  rw [BitVec.getLsbD_and, BitVec.getLsbD_append, BitVec.getLsbD_append, h i hi]
  by_cases h8 : i < 8 <;> simp [h8]

theorem stat : Statement .stat := fun _ => by decide
theorem kclr : Statement .kclr := fun _ => by decide
theorem expand : Statement .expand := fun _ => by decide
theorem bclr : Statement .bclr := fun _ => by decide
theorem enc : Statement .enc := fun _ => by decide
theorem dec : Statement .dec := fun _ => by decide
theorem rotl : Statement .rotl := fun _ => by decide
theorem rotr : Statement .rotr := fun _ => by decide

theorem kpush (imm8 : Byte) : Statement (.kpush imm8) := fun _ => by
  refine ⟨⟨⟨.KPUSH, .b, 0x1100, 0xFF00⟩, by decide, rfl, ?_⟩, ?_⟩
  · exact beq_iff_eq.2 (selects_append 0x11#8 imm8)
  · exact congrArg BitVec.toNat (argField_append 0x11#8 imm8)

theorem bpush (imm8 : Byte) : Statement (.bpush imm8) := fun _ => by
  refine ⟨⟨⟨.BPUSH, .b, 0x2100, 0xFF00⟩, by decide, rfl, ?_⟩, ?_⟩
  · exact beq_iff_eq.2 (selects_append 0x21#8 imm8)
  · exact congrArg BitVec.toNat (argField_append 0x21#8 imm8)

/-- An index that fits survives its 8-bit field. -/
theorem index_roundtrip (idx : Nat) (h : indexFits idx = true) : (BitVec.ofNat 8 idx).toNat = idx := by
  have : idx < 256 := by simpa [indexFits] using h
  simpa using this

theorem srd (idx : Nat) : Statement (.srd idx) := fun h => by
  refine ⟨⟨⟨.SRD, .x, 0x1300, 0xFF00⟩, by decide, rfl, ?_⟩, ?_⟩
  · exact beq_iff_eq.2 (selects_append 0x13#8 (BitVec.ofNat 8 idx))
  · exact (congrArg BitVec.toNat (argField_append 0x13#8 (BitVec.ofNat 8 idx))).trans (index_roundtrip idx h)

theorem brd (idx : Nat) : Statement (.brd idx) := fun h => by
  refine ⟨⟨⟨.BRD, .x, 0x2200, 0xFF00⟩, by decide, rfl, ?_⟩, ?_⟩
  · exact beq_iff_eq.2 (selects_append 0x22#8 (BitVec.ofNat 8 idx))
  · exact (congrArg BitVec.toNat (argField_append 0x22#8 (BitVec.ofNat 8 idx))).trans (index_roundtrip idx h)

end Sys2Proof.Laws.EncodesInItsRow
end

