-- ==== Sys2Proof/Laws/Run.lean ====
section
/-! SUPPORT. Runs of several steps, one step at a time, that a command always answers a next state, and the
status word as a number. -/

namespace Sys2Proof.Machine

theorem run_zero (s : State) : Host.Core.run Sys2Proof.core 0 s = .next s := rfl

/-- A run starts with a step. -/
theorem run_succ (k : Nat) (s t : State) (h : step s = .next t) :
    Host.Core.run Sys2Proof.core (k + 1) s = Host.Core.run Sys2Proof.core k t := by
  have hc : Sys2Proof.core.step s = .next t := h
  simp only [Host.Core.run]
  split
  · rename_i u hu
    rw [hc] at hu
    cases hu
    rfl
  · rename_i r hr
    rw [hc] at hr
    cases hr
  · rename_i r hr
    rw [hc] at hr
    cases hr

/-- Every command answers a next state (rule R16). -/
theorem exec_next (i : Instr) (s : State) : ∃ t, exec i s = .next t := by
  cases i with
  | stat => exact ⟨_, rfl⟩
  | kclr => exact ⟨_, rfl⟩
  | kpush imm8 => exact ⟨_, rfl⟩
  | bclr => exact ⟨_, rfl⟩
  | bpush imm8 => exact ⟨_, rfl⟩
  | expand => rcases execExpand_cases s with ⟨_, he⟩ | ⟨_, _, he⟩ | ⟨_, _, he⟩ <;> exact ⟨_, he⟩
  | srd idx =>
    by_cases h : s.SV = false ∨ 26 ≤ idx
    · exact ⟨_, execSrd_error s idx h⟩
    · exact ⟨_, execSrd_ok s idx (by simpa using fun h' => h (.inl h')) (by omega)⟩
  | brd idx =>
    by_cases h : 8 ≤ idx ∨ s.BLEN ≤ idx
    · exact ⟨_, execBrd_error s idx h⟩
    · exact ⟨_, execBrd_ok s idx (by omega) (by omega)⟩
  | enc =>
    rcases cipher_ready_or_not s with ⟨h8, hv⟩ | hn
    · exact ⟨_, execEnc_ok s h8 hv⟩
    · exact ⟨_, execEnc_error s hn⟩
  | dec =>
    rcases cipher_ready_or_not s with ⟨h8, hv⟩ | hn
    · exact ⟨_, execDec_ok s h8 hv⟩
    · exact ⟨_, execDec_error s hn⟩
  | rotl =>
    by_cases h8 : s.BLEN = 8
    · exact ⟨_, execRotl_ok s h8⟩
    · exact ⟨_, execRotl_error s h8⟩
  | rotr =>
    by_cases h8 : s.BLEN = 8
    · exact ⟨_, execRotr_ok s h8⟩
    · exact ⟨_, execRotr_error s h8⟩

/-- What a command never touches (rule R20: no row of its table is the host's). -/
theorem exec_outside (i : Instr) (s t : State) (h : exec i s = .next t) :
    t.cfg = s.cfg ∧ t.host = s.host ∧ t.taken = s.taken ∧ t.rsp.isSome = true := by
  cases exec_effect i s t h <;> exact ⟨rfl, rfl, rfl, rfl⟩

/-- The status word as a number, while the counters fit their fields (rule R160). -/
theorem toNat_statusWord (s : State) (hk : s.KLEN < 65536) (hb : s.BLEN < 16) :
    (statusWord s).toNat = s.SV.toNat * 2 ^ 24 + s.BLEN * 2 ^ 16 + s.KLEN := by
  unfold statusWord
  rw [BitVec.toNat_ofNat]
  cases s.SV <;> simp <;> omega

end Sys2Proof.Machine
end

