-- ==== Sys2Proof/Tests/Slice0.lean ====
section
/-! SUPPORT. The model's own tests: the well-formedness smoke test, decoding of words written from the opcode map
(R63, V-EN1), one step on a small state for each command with the response that 95_test_vectors.md prints, and
for each obligation with hypotheses a state that meets them. Vector ids are those of 95_test_vectors.md. -/

namespace Sys2Proof.Machine

/-! ### Small states -/

/-- The response a result leaves on the port. -/
def answer (r : Result) : Option Response :=
  match r with
  | .next t => t.rsp
  | .fault _ => none
  | .refused _ => none

/-- A property of the next state; false of a fault or a refusal. -/
def after (r : Result) (p : State → Bool) : Bool :=
  match r with
  | .next t => p t
  | .fault _ => false
  | .refused _ => false

/-- A buffer that holds these bytes from index 0 on. -/
def bufferOf (bytes : List Byte) : Memory :=
  (bytes.zipIdx).foldl (fun m p => m.write p.2 p.1) []

/-- The bytes 0, 1, ..., n - 1. -/
def countingBytes (n : Nat) : List Byte :=
  (List.range n).map fun a => BitVec.ofNat 8 a

/-- Reset, then a key and a block loaded. -/
def loaded (key block : List Byte) : State :=
  { State.reset with KEY := bufferOf key, KLEN := key.length, BLK := bufferOf block, BLEN := block.length }

/-- The final table of V-KS2. -/
def goldenTable : Table :=
  #v[0xD740E5A5, 0x18863450, 0xBE2D9F19, 0x841488A4, 0xE940C8FA, 0xD9F2D892, 0x91188F0A, 0x0E5CE78E, 0xC86F09AB,
     0xD39C6383, 0xB07945F8, 0x6D6AE93F, 0xC9D8F273, 0xABB95BB3, 0xCE29AC52, 0x0E1B5ABD, 0xA70C82A2, 0xC83E1A5A,
     0xFCCC4A09, 0x7EA48262, 0x313B721B, 0x838862BD, 0xD6B58BA1, 0xDDB2841C, 0x57D398F7, 0x3CA67CC8]

/-- "golden key expanded, golden plaintext loaded" (V-EN1). -/
def golden : State :=
  { loaded (countingBytes 16) (countingBytes 8) with S := goldenTable, SV := true }

/-- The golden state with other counters. -/
def goldenWith (klen blen : Nat) (sv : Bool) : State :=
  { golden with KLEN := klen, BLEN := blen, SV := sv }

/-- One step that transfers this command. -/
def stepOn (s : State) (i : Instr) : Result :=
  step (s.withFetchWord 16 (encode i).toNat)

/-! ### WellFormed smoke: the one check is the index width, for SRD and for BRD (R62) -/

theorem test_srd_index_256_is_ill_formed : (Instr.srd 256).wellFormed = false := by decide

theorem test_brd_index_256_is_ill_formed : (Instr.brd 256).wellFormed = false := by decide

theorem test_index_255_is_well_formed : (Instr.srd 255).wellFormed = true ∧ (Instr.brd 255).wellFormed = true := by
  decide

/-! ### Decoding: words of R63 and V-EN1, one per constructor, and illegal words -/

theorem test_decode_stat : decode 0b0000000100000000#16 = .ok .stat := by decide

theorem test_decode_kclr : decode 0b0001000000000000#16 = .ok .kclr := by decide

theorem test_decode_kpush : decode 0b0001000100001010#16 = .ok (.kpush 0x0A#8) := by decide

theorem test_decode_expand : decode 0b0001001000000000#16 = .ok .expand := by decide

theorem test_decode_srd : decode 0b0001001100011001#16 = .ok (.srd 25) := by decide

theorem test_decode_bclr : decode 0b0010000000000000#16 = .ok .bclr := by decide

theorem test_decode_bpush : decode 0b0010000111000111#16 = .ok (.bpush 0xC7#8) := by decide

theorem test_decode_brd : decode 0b0010001000000011#16 = .ok (.brd 3) := by decide

theorem test_decode_enc : decode 0b0011000000000000#16 = .ok .enc := by decide

theorem test_decode_dec : decode 0b0011000100000000#16 = .ok .dec := by decide

theorem test_decode_rotl : decode 0b0100000000000000#16 = .ok .rotl := by decide

theorem test_decode_rotr : decode 0b0100000100000000#16 = .ok .rotr := by decide

/-- V-EN1, the rows "illegal". -/
theorem test_decode_illegal :
    ([0x0101, 0x0000, 0xFFFF, 0x00FF, 0x0200, 0x1001, 0x10FF, 0x1201, 0x1400, 0x2001, 0x2300, 0x3001, 0x3200,
      0x4001, 0x4200, 0x5000, 0x8000] : List Command).all (fun w => (decode w).toOption.isNone) = true := by
  decide

/-- The host's numbering of a word's bits is the command word itself; a byte is no command. -/
theorem test_decodeTableWord :
    decodeTableWord 16 0x131A = some (.srd 26) ∧ decodeTableWord 16 0x3001 = none ∧
    decodeTableWord 16 0x4100 = some .rotr := by decide

/-! ### Words and functions -/

/-- V-W1, rows 2, 3 and 6. -/
theorem test_word_arithmetic :
    add32 0xFFFFFFFF#32 1#32 = 0#32 ∧ sub32 0#32 1#32 = 0xFFFFFFFF#32 ∧
    add32 0xB7E15163#32 0x9E3779B9#32 = 0x5618CB1C#32 ∧ sub32 0xB7E15163#32 0x9E3779B9#32 = 0x19A9D7AA#32 ∧
    xor32 0xB7E15163#32 0x9E3779B9#32 = 0x29D628DA#32 := by decide

/-- V-ROT1: a negative amount, an amount over 32, and the amount 0 reached from -2^31. -/
theorem test_rotates :
    rotl 0xDEADBEEF#32 (-13) = 0xF77EF56D#32 ∧ rotr 0xDEADBEEF#32 1000003 = 0xFBD5B7DD#32 ∧
    rotl 0x12345678#32 (-2147483648) = 0x12345678#32 ∧ rotr 0x12345678#32 4 = 0x81234567#32 := by decide

/-- V-KS2, the first iteration: A = BF0A8B1D, n = 29, B = 17E171A4. -/
theorem test_mixstep :
    (mixstep (mixStart [0x00010203#32, 0x04050607#32, 0x08090A0B#32, 0x0C0D0E0F#32])).A = 0xBF0A8B1D#32 ∧
    (mixstep (mixStart [0x00010203#32, 0x04050607#32, 0x08090A0B#32, 0x0C0D0E0F#32])).L =
      [0x17E171A4#32, 0x04050607#32, 0x08090A0B#32, 0x0C0D0E0F#32] := by decide +kernel

/-- V-KS2, the final table. -/
theorem test_derive_golden : derive (countingBytes 16) = some goldenTable := by decide +kernel

/-- V-KS5: the table of the six-byte key is that of its first four bytes; V-ER1: three bytes give none. -/
theorem test_derive_short :
    derive (countingBytes 6) = derive (countingBytes 4) ∧ derive (countingBytes 3) = none := by decide +kernel

/-- V-BC1 and V-BC2, the rows i = 1. -/
theorem test_cipher_rounds :
    encround goldenTable 1 0xD741E7A8#32 0x1C8B3A57#32 = (0x186C19BE#32, 0xFF676813#32) ∧
    decround goldenTable 1 0x186C19BE#32 0xFF676813#32 = (0xD741E7A8#32, 0x1C8B3A57#32) := by decide

/-- V-BC6: the cipher does not read S[13], and reads S[12]. -/
theorem test_cipher_entries :
    encrypt (goldenTable.set 13 0#32) 0x00010203#32 0x04050607#32 = (0xC768FB87#32, 0x124C9898#32) ∧
    encrypt (goldenTable.set 12 0#32) 0x00010203#32 0x04050607#32 ≠ (0xC768FB87#32, 0x124C9898#32) := by
  decide +kernel

/-- V-EN3: the 40-bit response word. -/
theorem test_response_words :
    response okCode 0xD740E5A5#32 = 0x00D740E5A5#40 ∧
    response (errorCode .illegalCommand) 0x0000FFFF#32 = 0x030000FFFF#40 ∧
    response (errorCode .keyOverflow) 104#32 = 0x0400000068#40 := by decide

/-! ### One step per command: the responses of V-EN1, V-ER1 to V-ER5, V-ROT2, V-KS2 and 2.6 -/

theorem test_step_stat : answer (stepOn golden .stat) = some 0x0001080010#40 := by decide +kernel

/-- 2.6, last row: KLEN = 65535 (overflow with KEY_BYTES_MAX = 65534), BLEN = 9, SV = 1. -/
theorem test_step_stat_top :
    answer (stepOn { goldenWith 65535 9 true with cfg := ⟨65534⟩ } .stat) = some 0x000109FFFF#40 := by
  decide +kernel

theorem test_step_kclr : after (stepOn golden .kclr) (fun t =>
    t.rsp == some 0x0000000000#40 && t.KLEN == 0 && t.SV && t.KEY.read 15 == 0x0F#8) = true := by decide +kernel

theorem test_step_kpush : after (stepOn golden (.kpush 0xFF#8)) (fun t =>
    t.rsp == some 0x0000000011#40 && t.KEY.read 16 == 0xFF#8 && t.KEY.read 15 == 0x0F#8) = true := by
  decide +kernel

/-- V-ER4, default capacity: the 105th push. -/
theorem test_step_kpush_overflow : after (stepOn (goldenWith 104 8 true) (.kpush 0xFF#8)) (fun t =>
    t.rsp == some 0x0000000069#40 && t.KEY.read 104 == 0x00#8) = true := by decide +kernel

/-- V-KS2 with its last lines: the table, L and the accumulators after the loop. -/
theorem test_step_expand : after (stepOn (goldenWith 16 8 false) .expand) (fun t =>
    t.rsp == some 0x0000000004#40 && t.SV && t.S == goldenTable && t.c == 4 &&
    t.L.take 4 == [0x35D9D83A#32, 0x65ECB077#32, 0xE8B83ECE#32, 0x9CC9BBB4#32] &&
    t.A == 0x3CA67CC8#32 && t.B == 0x65ECB077#32) = true := by decide +kernel

theorem test_step_expand_errors :
    answer (stepOn (goldenWith 3 8 true) .expand) = some 0x0100000003#40 ∧
    answer (stepOn (goldenWith 105 8 true) .expand) = some 0x0400000068#40 := by decide +kernel

theorem test_step_srd :
    answer (stepOn golden (.srd 12)) = some 0x00C9D8F273#40 ∧
    answer (stepOn golden (.srd 25)) = some 0x003CA67CC8#40 := by decide +kernel

/-- V-EN1 and V-ER2: index 26 with and without a table, index 0 without one. -/
theorem test_step_srd_errors :
    answer (stepOn golden (.srd 26)) = some 0x0200000004#40 ∧
    answer (stepOn (goldenWith 16 8 false) (.srd 26)) = some 0x0200000006#40 ∧
    answer (stepOn (goldenWith 16 8 false) (.srd 0)) = some 0x0200000002#40 := by decide +kernel

theorem test_step_bclr : after (stepOn golden .bclr) (fun t =>
    t.rsp == some 0x0000000000#40 && t.BLEN == 0 && t.KLEN == 16) = true := by decide +kernel

/-- R140's example. -/
theorem test_step_bpush : after (stepOn (goldenWith 16 0 true) (.bpush 0xC7#8)) (fun t =>
    t.rsp == some 0x0000000001#40 && t.BLK.read 0 == 0xC7#8 && t.BLK.read 1 == 0x01#8) = true := by decide +kernel

/-- V-EN1: BPUSH 0xFF on a full buffer. -/
theorem test_step_bpush_full : after (stepOn golden (.bpush 0xFF#8)) (fun t =>
    t.rsp == some 0x0000000009#40 && t.BLK == golden.BLK) = true := by decide +kernel

/-- V-EN1 and V-ER2: byte 7 is readable with BLEN = 8 and with BLEN = 9. -/
theorem test_step_brd :
    answer (stepOn golden (.brd 7)) = some 0x0000000007#40 ∧
    answer (stepOn (goldenWith 16 9 true) (.brd 7)) = some 0x0000000007#40 := by decide +kernel

theorem test_step_brd_errors :
    answer (stepOn golden (.brd 8)) = some 0x0200000004#40 ∧
    answer (stepOn (goldenWith 16 7 true) (.brd 7)) = some 0x0200000004#40 := by decide +kernel

/-- V-BC1. -/
theorem test_step_enc : after (stepOn golden .enc) (fun t =>
    t.rsp == some 0x0000000000#40 && t.BLEN == 8 &&
    t.BLK == bufferOf [0xC7, 0x68, 0xFB, 0x87, 0x12, 0x4C, 0x98, 0x98]) = true := by decide +kernel

/-- V-ER2: no table alone, the length alone, both. -/
theorem test_step_enc_errors :
    answer (stepOn (goldenWith 16 8 false) .enc) = some 0x0200000002#40 ∧
    answer (stepOn (goldenWith 16 9 true) .enc) = some 0x0200000001#40 ∧
    answer (stepOn (goldenWith 16 7 false) .enc) = some 0x0200000003#40 := by decide +kernel

/-- V-BC2. -/
theorem test_step_dec :
    after (stepOn { golden with BLK := bufferOf [0xC7, 0x68, 0xFB, 0x87, 0x12, 0x4C, 0x98, 0x98] } .dec) (fun t =>
      t.rsp == some 0x0000000000#40 && t.BLK == golden.BLK) = true := by decide +kernel

theorem test_step_dec_errors : answer (stepOn State.reset .dec) = some 0x0200000003#40 := by decide +kernel

/-- V-ROT2, row 1; no table is needed. -/
theorem test_step_rotl :
    after (stepOn (loaded [] [0x12, 0x34, 0x56, 0x78, 0x00, 0x00, 0x00, 0x04]) .rotl) (fun t =>
      t.rsp == some 0x0023456781#40 &&
      t.BLK == bufferOf [0x23, 0x45, 0x67, 0x81, 0x00, 0x00, 0x00, 0x04]) = true := by decide +kernel

/-- V-ROT2, row 6. -/
theorem test_step_rotr :
    after (stepOn (loaded [] [0x80, 0x00, 0x00, 0x01, 0xFF, 0xFF, 0xFF, 0xFF]) .rotr) (fun t =>
      t.rsp == some 0x0000000003#40 &&
      t.BLK == bufferOf [0x00, 0x00, 0x00, 0x03, 0xFF, 0xFF, 0xFF, 0xFF]) = true := by decide +kernel

theorem test_step_rotate_errors :
    answer (stepOn State.reset .rotl) = some 0x0200000001#40 ∧
    answer (stepOn (goldenWith 16 9 true) .rotr) = some 0x0200000001#40 := by decide +kernel

/-- V-ER5. -/
theorem test_step_illegal_word : answer (step (golden.withFetchWord 16 0xFFFF)) = some 0x030000FFFF#40 := by
  decide +kernel

/-- "Reset in the middle" (95): the counters and SV go, a waiting response with them, the bytes stay (R191). -/
theorem test_step_reset :
    after (step { golden with rsp := some 0x0000000000#40, host := [.reset] }) (fun t =>
      t.KLEN == 0 && t.BLEN == 0 && !t.SV && t.rsp == none && t.taken == [] && t.KEY == golden.KEY) = true := by
  decide +kernel

/-- V-EN2: text lines, a pseudo-instruction with two operands, and the empty key. -/
theorem test_assemble_lines :
    assembleLine "KPUSH 0x0A".toList = .ok [0x110A#16] ∧ assembleLine "KPUSH 255".toList = .ok [0x11FF#16] ∧
    assembleLine "KEY 00010203".toList = .ok [0x1000#16, 0x1100#16, 0x1101#16, 0x1102#16, 0x1103#16] ∧
    assembleLine "KEY \"\"".toList = .ok [0x1000#16] ∧
    assembleLine "ROTATEL 12345678, 00000004".toList =
      .ok [0x2000#16, 0x2112#16, 0x2134#16, 0x2156#16, 0x2178#16, 0x2100#16, 0x2100#16, 0x2100#16, 0x2104#16,
        0x4000#16, 0x2200#16, 0x2201#16, 0x2202#16, 0x2203#16] := by decide +kernel

/-- V-EN2: the lines that emit nothing. -/
theorem test_assemble_errors :
    assembleLine "ENC 1".toList = .error .operandOnZ ∧ assembleLine "KPUSH".toList = .error .missingOperand ∧
    assembleLine "KPUSH 256".toList = .error .operandAbove255 ∧
    assembleLine "KEY 00010".toList = .error .invalidHexInput ∧
    assembleLine "KEY 0001zz".toList = .error .invalidHexInput := by decide +kernel

/-! ### Witnesses: for each obligation with hypotheses, inputs that meet them -/

/-- The golden state is in every range. -/
theorem golden_wf : golden.WF where
  cfg_legal := by decide
  klen_le := by decide
  blen_le := by decide
  key_wf := by decide
  key_within := by decide
  blk_wf := by decide
  blk_within := by decide
  l_length := by decide
  c_le := by decide
  j_lt := by decide
  k_lt := by decide
  rsp_code := by intro r h; cases h

/-- ResetMeetsInvariant's premises elsewhere, StepKeepsInvariant: a state with a table meets the invariant. -/
theorem test_witness_inv : golden.Inv :=
  ⟨golden_wf, fun _ => ⟨countingBytes 16, by decide, test_derive_golden⟩⟩

/-- StepKeepsInvariant, OnlyExpandWritesTable, CountersMoveByTheirCommands, BuffersWrittenByTheirCommands: a
step from such a state that writes S, and one that writes both counters' buffers. -/
theorem test_witness_step :
    (∃ t, step ((goldenWith 4 8 false).withFetchWord 16 0x1200) = .next t ∧
      decide (t.S ≠ (goldenWith 4 8 false).S) = true ∧ t.SV = true) ∧
    (∃ t, step (golden.withFetchWord 16 0x11AB) = .next t ∧ t.KEY.read 16 ≠ golden.KEY.read 16) ∧
    (∃ t, step ((goldenWith 16 7 true).withFetchWord 16 0x21AB) = .next t ∧ t.BLK.read 7 ≠ golden.BLK.read 7) ∧
    ∃ t, step { golden with host := [.reset] } = .next t ∧ t.SV = false :=
  ⟨⟨_, rfl, by decide +kernel, rfl⟩, ⟨_, rfl, by decide⟩, ⟨_, rfl, by decide⟩, ⟨_, rfl, rfl⟩⟩

/-- UnspecifiedStorageIsUnobservable: two well-formed states that differ in unreachable storage alone. -/
theorem test_witness_same_visible :
    (goldenWith 3 8 false).WF ∧ { goldenWith 3 8 false with S := Vector.replicate 26 0#32, A := 1#32 }.WF ∧
    (goldenWith 3 8 false).SameVisible
      { goldenWith 3 8 false with S := Vector.replicate 26 0#32, A := 1#32 } := by
  have h := golden_wf
  refine ⟨⟨h.1, by decide, by decide, h.4, h.5, h.6, h.7, h.8, h.9, h.10, h.11, h.12⟩,
    ⟨h.1, by decide, by decide, h.4, h.5, h.6, h.7, h.8, h.9, h.10, h.11, h.12⟩, ?_⟩
  exact ⟨rfl, rfl, rfl, rfl, fun _ _ _ => rfl, fun _ _ _ => rfl, fun h => absurd h (by decide), rfl, rfl, rfl⟩

/-- RotlCommandRotatesBlock, RotrCommandRotatesBlock, EncEncryptsBlockInPlace, DecDecryptsBlockInPlace,
TableDoesNotFollowKeyBuffer, BlockBufferKeepsItsLength: 8 block bytes, canonical, with a table; the other
clauses' lengths 7 and 9. -/
theorem test_witness_block :
    golden.BLEN = 8 ∧ golden.SV = true ∧ golden.BLK.wf ∧ (goldenWith 16 7 true).BLEN ≠ 8 ∧
    (goldenWith 16 9 true).BLEN ≠ 8 ∧ (goldenWith 16 8 false).SV = false := by decide

/-- TableDoesNotFollowKeyBuffer, ExpandErrorsKeepTable: the lengths at which EXPAND fails. -/
theorem test_witness_expand_errors :
    (goldenWith 3 8 true).KLEN / 4 = 0 ∧ (goldenWith 3 8 true).cfg.Legal ∧
    (goldenWith 105 8 true).KLEN = (goldenWith 105 8 true).cfg.keyBytesMax + 1 := by decide

/-- ExpandDerivesTable: the least and the greatest key length, and the key bytes as a list. -/
theorem test_witness_expand :
    4 ≤ (goldenWith 4 8 true).KLEN ∧ (goldenWith 104 8 true).KLEN ≤ (goldenWith 104 8 true).cfg.keyBytesMax ∧
    (countingBytes 16).length = golden.KLEN ∧ ∀ n, n < 16 → (countingBytes 16)[n]? = some (golden.KEY.read n) := by
  decide

/-- ExpandDerivesTable: the ranges hold at both of those lengths. -/
theorem test_witness_expand_wf : (goldenWith 4 8 true).WF ∧ (goldenWith 104 8 true).WF := by
  have h := golden_wf
  exact ⟨⟨h.1, by decide, h.3, h.4, h.5, h.6, h.7, h.8, h.9, h.10, h.11, h.12⟩,
    ⟨h.1, by decide, h.3, h.4, h.5, h.6, h.7, h.8, h.9, h.10, h.11, h.12⟩⟩

/-- KpushAppendsKeyByte: the last byte that fits, the first that does not, the shortest key with a word. -/
theorem test_witness_kpush :
    golden.KEY.wf ∧ (goldenWith 103 8 true).KLEN < 104 ∧ 104 ≤ (goldenWith 104 8 true).KLEN ∧
    4 ≤ (goldenWith 4 8 true).KLEN := by decide

/-- BpushAppendsBlockByte, BrdReturnsBlockByte, SrdReturnsTableWord: both sides of each bound. -/
theorem test_witness_bounds :
    (goldenWith 16 7 true).BLEN < 8 ∧ 8 ≤ golden.BLEN ∧ (7 < 8 ∧ 7 < golden.BLEN) ∧
    (goldenWith 16 7 true).BLEN ≤ 7 ∧ golden.SV = true ∧ 25 < 26 ∧ (goldenWith 16 8 false).SV = false := by decide

/-- KclrEmptiesKey and StatReportsCounters: the greatest block length, and a well-formed state. -/
theorem test_witness_stat : (goldenWith 16 9 true).BLEN ≤ 9 ∧ golden.WF := ⟨by decide, golden_wf⟩

/-- ReadsHaveNoSideEffects, ErrorChangesNoState, ErrorKindsByCommand: commands that answer, and one that answers
an error. -/
theorem test_witness_answers :
    (∃ t, exec .stat golden = .next t) ∧ (∃ t, exec (.srd 25) golden = .next t) ∧
    (∃ t, exec (.brd 7) golden = .next t) ∧
    ∃ t r, runWord 0x131A#16 golden = .next t ∧ t.rsp = some r ∧ responseCode r ≠ 0x00#8 :=
  ⟨⟨_, rfl⟩, ⟨_, rfl⟩, ⟨_, rfl⟩, ⟨_, _, rfl, rfl, by decide⟩⟩

/-- OneResponsePerCommandInOrder, StepRunsDecodedCommand, IllegalWordAnswersIllegalCommand,
ResetMoveReachesResetState, IdleKeepsStateAndTakeHandsOver: the host's moves. -/
theorem test_witness_moves :
    ({ golden with host := [.command 0x0100#16, .command 0xFFFF#16] } : State).host =
      [0x0100#16, 0xFFFF#16].map .command ∧
    decode 0x0100#16 = .ok .stat ∧ (∀ r ∈ opcodeTable, r.selects 0xFFFF#16 = false) ∧
    ({ golden with host := [.reset] } : State).host = .reset :: [] ∧
    ({ golden with host := [.take], rsp := some 0#40 } : State).host = .take :: [] ∧ golden.host = [] := by decide

/-- KeyLoadThenExpandDerives: a shortest and a longest key. -/
theorem test_witness_key_load :
    golden.KEY.wf ∧ 4 ≤ (countingBytes 4).length ∧ (countingBytes 104).length ≤ golden.cfg.keyBytesMax := by
  decide +kernel

/-- RotateAmountIsModulo32, AddSubXorModulo32Bits, RotlMovesEachBitUp, RotrMovesEachBitDown: the narrowest
pattern (s = -4), the top bit, and an amount of each kind. -/
theorem test_witness_rotamt :
    5 ≤ 5 ∧ rotamt (BitVec.toInt 0b11100#5) = 28 ∧ 31 < 32 ∧ rotamt 32 = 0 ∧ rotamt (-1) ≠ 0 := by decide

/-- DecodeFollowsOpcodeTable, DecodeEncodeRoundTrip, EncodeDecodeRoundTrip: a word a row selects, one none
selects, a well-formed instruction at the top of its operand, a legal word. -/
theorem test_witness_decode :
    (∃ r ∈ opcodeTable, r.selects 0x13FF#16 = true) ∧ (∀ r ∈ opcodeTable, r.selects 0x0101#16 = false) ∧
    (Instr.srd 255).wellFormed = true ∧ decode 0x22FF#16 = .ok (.brd 255) := by decide

/-- AssembledLinesDecode, TextLinesAssemble: the operand's bounds and both kinds of format. -/
theorem test_witness_assemble :
    assemble .KPUSH (some 255) = .ok 0x11FF#16 ∧ assemble .ENC none = .ok 0x3000#16 ∧ 255 < 256 ∧
    Mnemonic.ENC.format = .z ∧ Mnemonic.SRD.format ≠ .z := by decide

/-- TextLinesAssemble: a word in lower case. -/
theorem test_witness_lower_case :
    ['e', 'c'] ≠ [] ∧ ∀ ch ∈ ['e', 'c'], 'a' ≤ ch ∧ ch ≤ 'z' := by
  refine ⟨by decide, fun ch h => ?_⟩
  rcases List.mem_cons.1 h with rfl | h
  · decide
  · rcases List.mem_singleton.1 h with rfl
    decide

/-- HexTextRoundTrip: text of odd length, text with another character, and that both are refused. -/
theorem test_witness_hex :
    ['0', '0', '1'].length % 2 = 1 ∧ hexDigit 'z' = none ∧ hexToBytes ['z', 'z'] = .error .invalidHexInput := by
  decide

/-- KeyPartitionDropsPartialChunk, DeriveIgnoresPartialChunk: a key with a word, and two that differ in the
partial chunk alone. -/
theorem test_witness_partition :
    0 < (countingBytes 4).length / 4 ∧ (countingBytes 4).length / 4 = (countingBytes 6).length / 4 ∧
    (countingBytes 4).take (4 * ((countingBytes 4).length / 4)) =
      (countingBytes 6).take (4 * ((countingBytes 6).length / 4)) ∧ countingBytes 4 ≠ countingBytes 6 := by decide

/-- MixstepReadsNewAAndOldB, MixLoopWritesEachEntryThreeTimes, CipherRoundsInOrder: one key word, the entry
written at k = 77 (the last iteration) and one not written at k = 0, an index of the loop. -/
theorem test_witness_mix :
    (mixStart [0#32]).j < (mixStart [0#32]).L.length ∧ [0#32] ≠ [] ∧ 77 % 26 = (25 : Fin 26).val ∧
    0 % 26 ≠ (1 : Fin 26).val ∧
    (11 : Fin 26) ∈ loopIndices := by decide

/-- CipherReadsExactlyEntries0To12: two tables that agree up to 12 and differ at 13. -/
theorem test_witness_entries :
    (∀ n : Fin 26, n.val ≤ 12 → goldenTable.get n = (goldenTable.set 13 0#32).get n) ∧
    goldenTable ≠ goldenTable.set 13 0#32 := by decide +kernel

/-- BlockLoadCipherRead: a state with a table, and ENC with the result of V-BC1. -/
theorem test_witness_block_load :
    golden.BLK.wf ∧ golden.SV = true ∧
    (Instr.enc = .enc ∧ ((0xC768FB87#32, 0x124C9898#32) : Word × Word) =
      encrypt golden.S (be32 0x00#8 0x01#8 0x02#8 0x03#8) (be32 0x04#8 0x05#8 0x06#8 0x07#8)) := by decide +kernel

/-- BlockLoadCipherRead, the DEC case, with the result of V-BC2. -/
theorem test_witness_block_load_dec :
    golden.BLK.wf ∧ golden.SV = true ∧
    (Instr.dec = .dec ∧ ((0x00010203#32, 0x04050607#32) : Word × Word) =
      decrypt golden.S (be32 0xC7#8 0x68#8 0xFB#8 0x87#8) (be32 0x12#8 0x4C#8 0x98#8 0x98#8)) := by decide +kernel

end Sys2Proof.Machine
end

section
/-! Every step and every command answers (rules R14, R16): a command puts its response on the port, a word no
row selects is answered by IllegalCommand, and the other moves of the host cannot fail. -/

namespace Sys2Proof.Machine

/-- Every command answers a next state with a response on the port (rules R16, R47). -/
theorem exec_answers (i : Instr) (s : State) : ∃ t r, exec i s = .next t ∧ t.rsp = some r := by
  obtain ⟨t, ht⟩ := exec_next i s
  obtain ⟨-, -, -, hrsp⟩ := exec_outside i s t ht
  obtain ⟨r, hr⟩ := Option.isSome_iff_exists.1 hrsp
  exact ⟨t, r, ht, hr⟩

/-- Every word answers a next state with a response on the port: its command's, or IllegalCommand (rules R64,
R173). -/
theorem runWord_answers (w : Command) (s : State) : ∃ t r, runWord w s = .next t ∧ t.rsp = some r := by
  rcases runWord_cases w s with ⟨i, -, hrun⟩ | ⟨e, -, hrun⟩
  · rw [hrun]
    exact exec_answers i s
  · exact ⟨_, _, hrun, rfl⟩

/-- A step on a command transfer: the waiting response is handed over, then the word runs (rules R46, R47). -/
theorem step_command {s : State} {w : Command} {rest : List HostMove} (h : s.host = .command w :: rest) :
    step s = runWord w (takeResponse { s with host := rest }) := by
  simp only [step, h, acceptCommand]

/-- A step with no move pending (rule R186). -/
theorem step_idle {s : State} (h : s.host = []) : step s = .next s := by
  simp only [step, h]

/-- A step on a response transfer (rule R46). -/
theorem step_take {s : State} {rest : List HostMove} (h : s.host = .take :: rest) :
    step s = .next (takeResponse { s with host := rest }) := by
  simp only [step, h]

/-- A step on a reset pulse (rule R190). -/
theorem step_reset {s : State} {rest : List HostMove} (h : s.host = .reset :: rest) :
    step s = .next (resetEngine { s with host := rest }) := by
  simp only [step, h]

/-- Every step answers a next state, whatever the host's next move (rule R16). -/
theorem step_next (s : State) : ∃ t, step s = .next t := by
  match h : s.host with
  | [] => exact ⟨s, step_idle h⟩
  | .command w :: rest =>
    obtain ⟨t, -, ht, -⟩ := runWord_answers w (takeResponse { s with host := rest })
    exact ⟨t, (step_command h).trans ht⟩
  | .take :: rest => exact ⟨_, step_take h⟩
  | .reset :: rest => exact ⟨_, step_reset h⟩

/-- Settles O40: a step by the host's next move, a command and a word by the response they leave. -/
theorem everyStepAnswersNext : Obligations.EveryStepAnswersNext :=
  ⟨step_next, exec_answers, runWord_answers⟩

end Sys2Proof.Machine
end

section
/-! The decoder undoes the encoder (rules R60 to R64), and so a step on a command's word is the command. -/

namespace Sys2Proof.Machine

open Sys2Proof.Laws.EncodesInItsRow (opField_append argField_append index_roundtrip)

/-- A KPUSH word decodes to its data byte (rules R62, R63). -/
theorem decode_kpush (imm8 : Byte) : decode (0x11#8 ++ imm8) = .ok (.kpush imm8) := by
  simp [decode, opField_append, argField_append]

/-- A BPUSH word decodes to its data byte (rules R62, R63). -/
theorem decode_bpush (imm8 : Byte) : decode (0x21#8 ++ imm8) = .ok (.bpush imm8) := by
  simp [decode, opField_append, argField_append]

/-- An SRD word decodes to the index in its `arg` field (rules R62, R63). -/
theorem decode_srd (arg : Byte) : decode (0x13#8 ++ arg) = .ok (.srd arg.toNat) := by
  simp [decode, opField_append, argField_append]

/-- A BRD word decodes to the index in its `arg` field (rules R62, R63). -/
theorem decode_brd (arg : Byte) : decode (0x22#8 ++ arg) = .ok (.brd arg.toNat) := by
  simp [decode, opField_append, argField_append]

/-- The word of a well-formed command decodes to that command (rule R64). -/
theorem decode_encode (i : Instr) (h : i.wellFormed = true) : decode (encode i) = .ok i := by
  cases i with
  | stat | kclr | expand | bclr | enc | dec | rotl | rotr => decide
  | kpush imm8 => exact decode_kpush imm8
  | bpush imm8 => exact decode_bpush imm8
  | srd idx => exact (decode_srd _).trans (by rw [index_roundtrip idx h])
  | brd idx => exact (decode_brd _).trans (by rw [index_roundtrip idx h])

/-- A word that decodes runs its command (rule R64). -/
theorem runWord_of_decode {w : Command} {i : Instr} (h : decode w = .ok i) (s : State) :
    runWord w s = exec i s := by
  simp only [runWord, h]

/-- Fetching a word puts it before the host's other moves. -/
theorem withFetchWord_toNat (s : State) (w : Command) : s.withFetchWord 16 w.toNat = placeCommand w s := by
  rw [State.withFetchWord, Nat.mod_eq_of_lt w.isLt, BitVec.ofNat_toNat, BitVec.setWidth_eq]

/-- A step on a placed command runs it on the state as it was, a waiting response handed over (rules R46, R47). -/
theorem step_placeCommand (s : State) (w : Command) :
    step (placeCommand w s) = runWord w (takeResponse s) :=
  step_command (placeCommand_host s w)

/-- Settles O54: a command transfer runs its word, and the word runs the command it decodes to. -/
theorem stepRunsDecodedCommand : Obligations.StepRunsDecodedCommand := by
  refine ⟨fun s w rest i hhost hdec => ?_, fun s i hwf => ?_⟩
  · calc step s = runWord w (takeResponse { s with host := rest }) := step_command hhost
      _ = exec i (takeResponse { s with host := rest }) := runWord_of_decode hdec _
  · calc step (s.withFetchWord 16 (encode i).toNat)
      _ = step (placeCommand (encode i) s) := by rw [withFetchWord_toNat]
      _ = runWord (encode i) (takeResponse s) := step_placeCommand s (encode i)
      _ = exec i (takeResponse s) := runWord_of_decode (decode_encode i hwf) _

end Sys2Proof.Machine
end

section
/-! What a step can do, said once: a legal word is the encoding of its command (rules R60 to R65), so a step is one
of the host's own moves, an illegal word, or the effect of the command whose encoding the host transferred. -/

namespace Sys2Proof.Machine

/-- A command word is its opcode field above its `arg` field (rule R60). -/
theorem opField_append_argField (w : Command) : opField w ++ argField w = w := by
  refine BitVec.eq_of_getLsbD_eq fun n hn => ?_
  rw [BitVec.getLsbD_append]
  by_cases h8 : n < 8
  · simp [argField, h8]
  · simp [opField, h8, show n - 8 < 8 by omega, show 8 + (n - 8) = n by omega]

/-- A word with a known opcode. -/
theorem append_argField {w : Command} {op : Nat} (h : (opField w).toNat = op) :
    BitVec.ofNat 8 op ++ argField w = w := by
  rw [← h, BitVec.ofNat_toNat, BitVec.setWidth_eq, opField_append_argField]

/-- A format Z word decodes only with `arg` 0x00 (rule R61). -/
theorem decodeZ_eq_ok {i i' : Instr} {w : Command} (h : decodeZ i w = .ok i') : i = i' ∧ argField w = 0#8 := by
  unfold decodeZ at h
  split at h
  · next harg => exact ⟨Except.ok.inj h, harg⟩
  · cases h

/-- A legal word is the encoding of the command it decodes to (rules R60 to R64). -/
theorem encode_of_decode {w : Command} {i : Instr} (h : decode w = .ok i) : encode i = w := by
  have formatZ (op : Nat) (i' : Instr) (hop : (opField w).toNat = op) (hz : decodeZ i' w = .ok i)
      (henc : encode i' = BitVec.ofNat 8 op ++ 0#8) : encode i = w := by
    obtain ⟨rfl, harg⟩ := decodeZ_eq_ok hz
    rw [henc, ← harg, append_argField hop]
  unfold decode at h
  split at h
  case h_3 hop | h_7 hop => -- format B, KPUSH and BPUSH
    cases h
    exact append_argField hop
  case h_5 hop | h_8 hop => -- format X, SRD and BRD
    cases h
    simpa [encode] using append_argField hop
  case h_13 => cases h -- an unused opcode
  all_goals exact formatZ _ _ ‹_› h rfl

/-- What a step can leave, by the host's next move (rules R14, R46, R47, R173, R190). -/
inductive StepEffect (s : State) : State → Prop where
  | idle (h : s.host = []) : StepEffect s s
  | take (rest : List HostMove) (h : s.host = .take :: rest) :
      StepEffect s (takeResponse { s with host := rest })
  | reset (rest : List HostMove) (h : s.host = .reset :: rest) :
      StepEffect s (resetEngine { s with host := rest })
  | illegal (w : Command) (rest : List HostMove) (e : IllegalWord) (h : s.host = .command w :: rest)
      (hdec : decode w = .error e) :
      StepEffect s (answered (takeResponse { s with host := rest })
        (response (errorCode .illegalCommand) (w.setWidth 32)))
  | command (i : Instr) (rest : List HostMove) (t : State) (h : s.host = .command (encode i) :: rest)
      (he : Effect (takeResponse { s with host := rest }) i t) (hdec : decode (encode i) = .ok i) : StepEffect s t

/-- The inversion of `step`. -/
theorem step_effect {s t : State} (h : step s = .next t) : StepEffect s t := by
  rcases step_cases s t h with ⟨hh, rfl⟩ | ⟨rest, hh, rfl⟩ | ⟨rest, hh, rfl⟩ | ⟨w, rest, hh, hrun⟩
  · exact .idle hh
  · exact .take rest hh
  · exact .reset rest hh
  · rcases runWord_cases w (takeResponse { s with host := rest }) with ⟨i, hdec, hi⟩ | ⟨e, hdec, he⟩
    · obtain rfl := encode_of_decode hdec
      exact .command i rest t hh (exec_effect i _ t (hi.symm.trans hrun)) hdec
    · exact next_unique he hrun ▸ .illegal w rest e hh hdec

/-- `Effect` is all that `exec` does: each effect is the command's answer. -/
theorem Effect.exec_eq {s t : State} {i : Instr} (he : Effect s i t) : exec i s = .next t := by
  cases he with
  | overflow hk => exact execExpand_overflow s hk
  | invalidKey hk h4 => exact execExpand_invalid s hk h4
  | cipherError i hi hn =>
    rcases hi with rfl | rfl
    · exact execEnc_error s hn
    · exact execDec_error s hn
  | rotateError i hi hn =>
    rcases hi with rfl | rfl
    · exact execRotl_error s hn
    · exact execRotr_error s hn
  | srdError idx hn => exact execSrd_error s idx hn
  | brdError idx hn => exact execBrd_error s idx hn
  | stat | kclr | kpush | bclr | bpush => rfl
  | expand hk h4 => exact execExpand_ok s hk h4
  | srd idx hv hi => exact execSrd_ok s idx hv hi
  | brd idx h8 hi => exact execBrd_ok s idx h8 hi
  | enc h8 hv => exact execEnc_ok s h8 hv
  | dec h8 hv => exact execDec_ok s h8 hv
  | rotl h8 => exact execRotl_ok s h8
  | rotr h8 => exact execRotr_ok s h8

/-- A word that does not decode is answered by IllegalCommand (rule R173). -/
theorem runWord_of_illegal {w : Command} {e : IllegalWord} (h : decode w = .error e) (s : State) :
    runWord w s = .next (answered s (response (errorCode .illegalCommand) (w.setWidth 32))) := by
  simp only [runWord, h]
  rfl

/-- `StepEffect` is all that `step` does: each is the step's answer. -/
theorem StepEffect.step_eq {s t : State} (hse : StepEffect s t) : step s = .next t := by
  cases hse with
  | idle h => exact step_idle h
  | take rest h => exact step_take h
  | reset rest h => exact step_reset h
  | illegal w rest e h hdec => exact (step_command h).trans (runWord_of_illegal hdec _)
  | command i rest t h he hdec =>
    calc step s
      _ = runWord (encode i) (takeResponse { s with host := rest }) := step_command h
      _ = exec i (takeResponse { s with host := rest }) := runWord_of_decode hdec _
      _ = .next t := he.exec_eq

end Sys2Proof.Machine
end

section
/-! The invariant of reachable states (rules R6, R20, R22, R24, R26, R28): reset meets it, and every command's effect
and every other move of the host keeps it. -/

namespace Sys2Proof.Machine

/-- One key word per whole chunk of four bytes (rule R100). -/
theorem keyWords_length : ∀ key : List Byte, (keyWords key).length = key.length / 4
  | [] | [_] | [_, _] | [_, _, _] => by simp [keyWords]
  | _ :: _ :: _ :: _ :: rest => by
    rw [keyWords_cons, List.length_cons, keyWords_length rest]
    simp only [List.length_cons]
    omega

/-- The key-word index of the mix loop stays inside the key words (rules R26, R103). -/
theorem mixTimes_j_lt (n : Nat) {L : List Word} (hL : 0 < L.length) :
    (mixTimes n (mixStart L)).j < L.length := by
  cases n with
  | zero => exact hL
  | succ n =>
    have hlen : (mixTimes n (mixStart L)).L.length = L.length := mixTimes_L_length n (mixStart L)
    calc (mixTimes (n + 1) (mixStart L)).j
      _ = ((mixTimes n (mixStart L)).j + 1) % L.length := by rw [mixTimes_succ, ← hlen]; rfl
      _ < L.length := Nat.mod_lt _ hL

/-- The number of key words in the key buffer is c = floor(KLEN / 4) (rule R110). -/
theorem length_keyWords_keyBytes (m : Memory) (n : Nat) : (keyWords (keyBytes m n)).length = n / 4 := by
  rw [keyWords_length, keyBytes_length]

/-- With a whole word in the key buffer, `derive` gives the scheduled table (rule R105). -/
theorem derive_keyBytes (m : Memory) {n : Nat} (h : 4 ≤ n) :
    derive (keyBytes m n) = some (schedule (keyWords (keyBytes m n))).S := by
  have hc : ¬ n / 4 = 0 := by omega
  rw [derive_eq, length_keyWords_keyBytes, if_neg hc]

/-- KLEN counts up to its overflow value KEY_BYTES_MAX + 1 (rules R27, R109). -/
theorem klenPushed_eq_min (max klen : Nat) : klenPushed max klen = min (klen + 1) (max + 1) := by
  unfold klenPushed
  split <;> omega

/-- BLEN counts up to its overflow value 9 (rules R27, R140). -/
theorem blenPushed_eq_min (blen : Nat) : blenPushed blen = min (blen + 1) 9 := by
  unfold blenPushed
  split <;> omega

/-- The codes of rule R66 are 0 to 4. -/
theorem okCode_le : okCode.toNat ≤ 4 := by decide

theorem errorCode_le (e : ErrorKind) : (errorCode e).toNat ≤ 4 := by
  cases e <;> decide

/-! ### Each update of the state keeps the invariant -/

theorem wf_withHost {s : State} (h : s.WF) (rest : List HostMove) : State.WF { s with host := rest } :=
  { h with }

theorem wf_takeResponse {s : State} (h : s.WF) : (takeResponse s).WF :=
  { h with rsp_code := fun _ hr => nomatch hr }

section
variable {s : State} (h : s.Inv)
include h

theorem inv_answered {code : Byte} (hcode : code.toNat ≤ 4) (d : Word) :
    (answered s (response code d)).Inv where
  wf := { h.wf with
    rsp_code := fun r hr => by
      cases hr
      rwa [responseCode_response] }
  table := h.table

theorem inv_withHost (rest : List HostMove) : State.Inv { s with host := rest } :=
  ⟨wf_withHost h.wf rest, h.table⟩

theorem inv_takeResponse : (takeResponse s).Inv :=
  ⟨wf_takeResponse h.wf, h.table⟩

/-- Reset clears the counters and SV, so that no table is claimed (rule R190). -/
theorem inv_resetEngine : (resetEngine s).Inv :=
  ⟨{ h.wf with klen_le := Nat.zero_le _, blen_le := Nat.zero_le _, rsp_code := fun _ hr => nomatch hr },
    fun hv => nomatch hv⟩

theorem inv_keyCleared : State.Inv { s with KLEN := 0 } :=
  ⟨{ h.wf with klen_le := Nat.zero_le _ }, h.table⟩

theorem inv_blockCleared : State.Inv { s with BLEN := 0 } :=
  ⟨{ h.wf with blen_le := Nat.zero_le _ }, h.table⟩

theorem inv_keyPushed (imm8 : Byte) : (keyPushed s imm8).Inv where
  wf := { h.wf with
    klen_le := (klenPushed_eq_min _ _).trans_le (Nat.min_le_right _ _)
    key_wf := by
      rw [keyPushed_KEY]
      split
      · exact Memory.wf_write _ _ _ h.wf.key_wf
      · exact h.wf.key_wf
    key_within := by
      rw [keyPushed_KEY]
      split
      · next hlt => exact Memory.within_write _ _ _ _ h.wf.key_within hlt
      · exact h.wf.key_within }
  table := h.table

theorem inv_blockPushed (imm8 : Byte) : (blockPushed s imm8).Inv where
  wf := { h.wf with
    blen_le := (blenPushed_eq_min _).trans_le (Nat.min_le_right _ _)
    blk_wf := by
      rw [blockPushed_BLK]
      split
      · exact Memory.wf_write _ _ _ h.wf.blk_wf
      · exact h.wf.blk_wf
    blk_within := by
      rw [blockPushed_BLK]
      split
      · next hlt => exact Memory.within_write _ _ _ _ h.wf.blk_within hlt
      · exact h.wf.blk_within }
  table := h.table

theorem inv_rotated (a : Word) : (rotated s a).Inv :=
  ⟨{ h.wf with blk_wf := wf_storeA _ _ h.wf.blk_wf, blk_within := within_storeA _ _ h.wf.blk_within }, h.table⟩

theorem inv_ciphered (i : Fin 26) (p : Word × Word) : (ciphered s i p).Inv :=
  ⟨{ h.wf with blk_wf := wf_storeAB _ _ _ h.wf.blk_wf, blk_within := within_storeAB _ _ _ h.wf.blk_within },
    h.table⟩

/-- EXPAND writes the first c entries of L, leaves j below c, and makes S the table of the bytes in KEY. -/
theorem inv_expanded (hk : s.KLEN ≠ s.cfg.keyBytesMax + 1) (h4 : 4 ≤ s.KLEN) : (expanded s).Inv := by
  have hmax : s.KLEN ≤ s.cfg.keyBytesMax := by have := h.wf.klen_le; omega
  have hc : s.KLEN / 4 ≤ s.cfg.keyWordsMax := Nat.div_le_div_right hmax
  have hwords := length_keyWords_keyBytes s.KEY s.KLEN
  have hpos : 0 < (keyWords (keyBytes s.KEY s.KLEN)).length := by omega
  have hj : (expanded s).j < s.KLEN / 4 := by
    rw [expanded_j, schedule_eq, ← hwords]
    exact mixTimes_j_lt 78 hpos
  have hL : (expanded s).L.length = s.cfg.keyWordsMax := by
    rw [expanded_L, List.length_append, schedule_L_length, hwords, List.length_drop, h.wf.l_length]
    omega
  exact
    { wf := { h.wf with l_length := hL, c_le := hc, j_lt := .inl hj, k_lt := by rw [expanded_k]; decide }
      table := fun _ => ⟨keyBytes s.KEY s.KLEN, (keyBytes_length _ _).trans_le hmax, derive_keyBytes _ h4⟩ }

/-- Every command keeps the invariant. -/
theorem Effect.inv {i : Instr} {t : State} (he : Effect s i t) : t.Inv := by
  cases he with
  | overflow | invalidKey | cipherError | rotateError | srdError | brdError =>
    exact inv_answered h (errorCode_le _) _
  | stat | srd | brd => exact inv_answered h okCode_le _
  | kclr => exact inv_answered (inv_keyCleared h) okCode_le _
  | kpush imm8 => exact inv_answered (inv_keyPushed h imm8) okCode_le _
  | expand hk h4 => exact inv_answered (inv_expanded h hk h4) okCode_le _
  | bclr => exact inv_answered (inv_blockCleared h) okCode_le _
  | bpush imm8 => exact inv_answered (inv_blockPushed h imm8) okCode_le _
  | enc | dec => exact inv_answered (inv_ciphered h _ _) okCode_le _
  | rotl | rotr => exact inv_answered (inv_rotated h _) okCode_le _

end

/-- Settles O45, by the host's move and, for a command, by its effect. -/
theorem stepKeepsInvariant : Obligations.StepKeepsInvariant := by
  intro s t h hstep
  cases step_effect hstep with
  | idle => exact h
  | take rest => exact inv_takeResponse (inv_withHost h rest)
  | reset rest => exact inv_resetEngine (inv_withHost h rest)
  | illegal w rest => exact inv_answered (inv_takeResponse (inv_withHost h rest)) (errorCode_le _) _
  | command i rest t hhost he => exact he.inv (inv_takeResponse (inv_withHost h rest))

/-- The state right after reset is in every range (rule R30). -/
theorem reset_wf : State.reset.WF where
  cfg_legal := by decide
  klen_le := Nat.zero_le _
  blen_le := Nat.zero_le _
  key_wf := Memory.wf_nil
  key_within := fun _ hc => nomatch hc
  blk_wf := Memory.wf_nil
  blk_within := fun _ hc => nomatch hc
  l_length := List.length_replicate
  c_le := Nat.zero_le _
  j_lt := .inr rfl
  k_lt := by decide
  rsp_code := fun _ hr => nomatch hr

/-- Settles O44: with SV = 0 no table is claimed. -/
theorem resetMeetsInvariant : Obligations.ResetMeetsInvariant :=
  ⟨⟨reset_wf, fun hv => nomatch hv⟩, rfl⟩

end Sys2Proof.Machine
end

section
/-! Which commands write which part of the state (rule R20's column "written by", rules R22, R27, R40), and so which
moves of the host do. -/

namespace Sys2Proof.Machine

/-- KEY after a KPUSH (rule R109). -/
theorem read_keyPushed {s : State} (h : s.KEY.wf) (imm8 : Byte) (a : Nat) :
    (keyPushed s imm8).KEY.read a =
      if s.KLEN < s.cfg.keyBytesMax ∧ a = s.KLEN then imm8 else s.KEY.read a := by
  rw [keyPushed_KEY]
  split
  · next hlt => simp only [Memory.read_write _ _ _ _ h, hlt, true_and]
  · next hlt => simp only [hlt, false_and, if_false]

/-- BLK after a BPUSH (rule R140). -/
theorem read_blockPushed {s : State} (h : s.BLK.wf) (imm8 : Byte) (a : Nat) :
    (blockPushed s imm8).BLK.read a = if s.BLEN < 8 ∧ a = s.BLEN then imm8 else s.BLK.read a := by
  rw [blockPushed_BLK]
  split
  · next hlt => simp only [Memory.read_write _ _ _ _ h, hlt, true_and]
  · next hlt => simp only [hlt, false_and, if_false]

/-- Storing A leaves the bytes from 4 on alone. -/
theorem read_storeA_of_le {m : Memory} (h : m.wf) (x : Word) {a : Nat} (ha : 4 ≤ a) :
    (storeA m x).read a = m.read a :=
  Memory.read_write32_outside m 0 a x h (.inr ha)

/-- Storing A and B leaves the bytes from 8 on alone. -/
theorem read_storeAB_of_le {m : Memory} (h : m.wf) (x y : Word) {a : Nat} (ha : 8 ≤ a) :
    (storeAB m x y).read a = m.read a :=
  (Memory.read_write32_outside _ 4 a y (wf_storeA m x h) (.inr ha)).trans (read_storeA_of_le h x (by omega))

/-! ### The writers of each part of the state, among the commands -/

section
variable {s t : State} {i : Instr} (he : Effect s i t)
include he

/-- Only an EXPAND that succeeds writes S or SV (rule R22). -/
theorem Effect.table_writers :
    SameTable s t ∨ i = .expand ∧ 4 ≤ s.KLEN ∧ s.KLEN ≠ s.cfg.keyBytesMax + 1 ∧ t.SV = true := by
  cases he with
  | expand hk h4 => exact .inr ⟨rfl, h4, hk, rfl⟩
  | _ => exact .inl ⟨rfl, rfl⟩

/-- Only KCLR and KPUSH write KLEN (rule R27). -/
theorem Effect.klen_writers :
    t.KLEN = s.KLEN ∨ i = .kclr ∧ t.KLEN = 0 ∨
      ∃ imm8, i = .kpush imm8 ∧ t.KLEN = min (s.KLEN + 1) (s.cfg.keyBytesMax + 1) := by
  cases he with
  | kclr => exact .inr (.inl ⟨rfl, rfl⟩)
  | kpush imm8 => exact .inr (.inr ⟨imm8, rfl, klenPushed_eq_min _ _⟩)
  | _ => exact .inl rfl

/-- Only BCLR and BPUSH write BLEN (rule R27). -/
theorem Effect.blen_writers :
    t.BLEN = s.BLEN ∨ i = .bclr ∧ t.BLEN = 0 ∨
      ∃ imm8, i = .bpush imm8 ∧ t.BLEN = min (s.BLEN + 1) 9 := by
  cases he with
  | bclr => exact .inr (.inl ⟨rfl, rfl⟩)
  | bpush imm8 => exact .inr (.inr ⟨imm8, rfl, blenPushed_eq_min _⟩)
  | _ => exact .inl rfl

/-- No command writes the capacity (rule R6). -/
theorem Effect.cfg_eq : t.cfg = s.cfg := by
  cases he <;> rfl

/-- Only KPUSH writes KEY, at index KLEN (rules R20, R109). -/
theorem Effect.key_writers (hwf : s.KEY.wf) {a : Nat} (ha : t.KEY.read a ≠ s.KEY.read a) :
    ∃ imm8, i = .kpush imm8 ∧ a = s.KLEN ∧ t.KEY.read a = imm8 := by
  cases he with
  | kpush imm8 =>
    have hread := read_keyPushed hwf imm8 a
    by_cases hat : s.KLEN < s.cfg.keyBytesMax ∧ a = s.KLEN
    · exact ⟨imm8, rfl, hat.2, hread.trans (if_pos hat)⟩
    · exact absurd (hread.trans (if_neg hat)) ha
  | _ => exact absurd rfl ha

/-- Only BPUSH, at index BLEN, the ciphers, in bytes 0 to 7, and the rotates, in bytes 0 to 3, write BLK (rules R20,
R87, R88, R140, R142, R143). -/
theorem Effect.blk_writers (hwf : s.BLK.wf) {a : Nat} (ha : t.BLK.read a ≠ s.BLK.read a) :
    (∃ imm8, i = .bpush imm8 ∧ a = s.BLEN ∧ t.BLK.read a = imm8) ∨
      ((i = .enc ∨ i = .dec) ∧ a < 8) ∨ ((i = .rotl ∨ i = .rotr) ∧ a < 4) := by
  have ciphered_lt {x y : Word} (hne : (storeAB s.BLK x y).read a ≠ s.BLK.read a) : a < 8 :=
    Nat.lt_of_not_le fun hle => hne (read_storeAB_of_le hwf x y hle)
  have rotated_lt {x : Word} (hne : (storeA s.BLK x).read a ≠ s.BLK.read a) : a < 4 :=
    Nat.lt_of_not_le fun hle => hne (read_storeA_of_le hwf x hle)
  cases he with
  | bpush imm8 =>
    have hread := read_blockPushed hwf imm8 a
    by_cases hat : s.BLEN < 8 ∧ a = s.BLEN
    · exact .inl ⟨imm8, rfl, hat.2, hread.trans (if_pos hat)⟩
    · exact absurd (hread.trans (if_neg hat)) ha
  | enc => exact .inr (.inl ⟨.inl rfl, ciphered_lt ha⟩)
  | dec => exact .inr (.inl ⟨.inr rfl, ciphered_lt ha⟩)
  | rotl => exact .inr (.inr ⟨.inl rfl, rotated_lt ha⟩)
  | rotr => exact .inr (.inr ⟨.inr rfl, rotated_lt ha⟩)
  | _ => exact absurd rfl ha

end

/-! ### The writers among the host's moves -/

/-- A table that stays as it was satisfies every claim about its writers. -/
theorem SameTable.not_written {s t : State} (h : SameTable s t) {P Q R : Prop} :
    (t.S ≠ s.S → P) ∧ (s.SV = false → t.SV = true → Q) ∧ (s.SV = true → t.SV = false → R) := by
  obtain ⟨hS, hSV⟩ := h
  exact ⟨fun hne => absurd hS hne, fun h0 h1 => by simp [hSV, h0] at h1, fun h1 h0 => by simp [hSV, h1] at h0⟩

/-- Settles O41: a move that is neither reset nor a command keeps S and SV, and of the commands only EXPAND writes
them. -/
theorem onlyExpandWritesTable : Obligations.OnlyExpandWritesTable := by
  intro s t hstep
  cases step_effect hstep with
  | idle | take | illegal => exact SameTable.not_written ⟨rfl, rfl⟩
  | reset rest hhost => exact ⟨fun hS => absurd rfl hS, fun _ h1 => (nomatch h1), fun _ _ => ⟨rest, hhost⟩⟩
  | command i rest t hhost he =>
    rcases he.table_writers with hsame | ⟨rfl, h4, hk, hv⟩
    · exact SameTable.not_written hsame
    · exact ⟨fun _ => ⟨rest, hhost, h4, hk, hv⟩, fun _ _ => ⟨rest, hhost, h4, hk⟩,
        fun _ h0 => nomatch h0.symm.trans hv⟩

/-- Settles O42: reset clears both counters, and of the commands only the clear and the push of a buffer move its
counter. -/
theorem countersMoveByTheirCommands : Obligations.CountersMoveByTheirCommands := by
  intro s t hstep
  cases step_effect hstep with
  | idle | take | illegal => exact ⟨.inr (.inr (.inr rfl)), .inr (.inr (.inr rfl))⟩
  | reset rest hhost => exact ⟨.inl ⟨rest, hhost, rfl⟩, .inl ⟨rest, hhost, rfl⟩⟩
  | command i rest t hhost he =>
    constructor
    · rcases he.klen_writers with heq | ⟨rfl, h0⟩ | ⟨imm8, rfl, hmin⟩
      · exact .inr (.inr (.inr heq))
      · exact .inr (.inl ⟨rest, hhost, h0⟩)
      · exact .inr (.inr (.inl ⟨imm8, rest, hhost, hmin⟩))
    · rcases he.blen_writers with heq | ⟨rfl, h0⟩ | ⟨imm8, rfl, hmin⟩
      · exact .inr (.inr (.inr heq))
      · exact .inr (.inl ⟨rest, hhost, h0⟩)
      · exact .inr (.inr (.inl ⟨imm8, rest, hhost, hmin⟩))

/-- Settles O43: the moves that are no command keep both buffers, and of the commands only those that R20 names write
them. -/
theorem buffersWrittenByTheirCommands : Obligations.BuffersWrittenByTheirCommands := by
  intro s t hkey hblk hstep
  cases step_effect hstep with
  | idle | take | reset | illegal => exact ⟨rfl, fun _ ha => absurd rfl ha, fun _ ha => absurd rfl ha⟩
  | command i rest t hhost he =>
    refine ⟨he.cfg_eq, fun a ha => ?_, fun a ha => ⟨i, rest, hhost, he.blk_writers hblk ha⟩⟩
    obtain ⟨imm8, rfl, hidx, hread⟩ := he.key_writers hkey ha
    exact ⟨imm8, rest, hhost, hidx, hread⟩

end Sys2Proof.Machine
end

section
/-! No command observes storage that the counters and SV do not cover, nor a transient register (rules R24, R25, R26,
R31, R32): every update of the state takes states that look alike to states that look alike, and every response is
made of what is visible. -/

namespace Sys2Proof.Machine

/-- Writing one byte keeps two buffers alike where they are alike. -/
theorem Memory.read_write_congr {m m' : Memory} (hm : m.wf) (hm' : m'.wf) {n : Nat} (h : m.read n = m'.read n)
    (a : Nat) (v : Byte) : (m.write a v).read n = (m'.write a v).read n := by
  rw [Memory.read_write _ _ _ _ hm, Memory.read_write _ _ _ _ hm', h]

/-- Writing one word keeps two buffers alike where they are alike. -/
theorem Memory.read_write32_congr {m m' : Memory} (hm : m.wf) (hm' : m'.wf) {n : Nat} (h : m.read n = m'.read n)
    (a : Nat) (v : Word) : (m.write32 a v).read n = (m'.write32 a v).read n := by
  rw [Memory.read_write32 _ _ _ _ hm, Memory.read_write32 _ _ _ _ hm', h]

/-- Storing A keeps two blocks alike where they are alike. -/
theorem read_storeA_congr {m m' : Memory} (hm : m.wf) (hm' : m'.wf) {n : Nat} (h : m.read n = m'.read n) (x : Word) :
    (storeA m x).read n = (storeA m' x).read n :=
  Memory.read_write32_congr hm hm' h 0 x

/-- Storing A and B keeps two blocks alike where they are alike. -/
theorem read_storeAB_congr {m m' : Memory} (hm : m.wf) (hm' : m'.wf) {n : Nat} (h : m.read n = m'.read n)
    (x y : Word) : (storeAB m x y).read n = (storeAB m' x y).read n :=
  Memory.read_write32_congr (wf_storeA m x hm) (wf_storeA m' x hm') (read_storeA_congr hm hm' h x) 4 y

namespace State.SameVisible

variable {s t : State} (h : s.SameVisible t)
include h

/-! ### What a response is made of is visible -/

theorem statusWord_eq : statusWord s = statusWord t := by
  simp only [statusWord, h.sv, h.blen, h.klen]

theorem cipherMask_eq : cipherMask s = cipherMask t := by
  simp only [cipherMask, h.sv, h.blen]

theorem tableReadMask_eq (idx : Nat) : tableReadMask s idx = tableReadMask t idx := by
  simp only [tableReadMask, h.sv]

/-- A full block is visible whole. -/
theorem blk_full (h8 : s.BLEN = 8) {n : Nat} (hn : n < 8) : s.BLK.read n = t.BLK.read n :=
  h.blk n (h8 ▸ hn) hn

theorem blockA_eq (h8 : s.BLEN = 8) : blockA s = blockA t := by
  simp only [blockA, Memory.read32, h.blk_full h8, Nat.reduceAdd, Nat.reduceLT]

theorem blockB_eq (h8 : s.BLEN = 8) : blockB s = blockB t := by
  simp only [blockB, Memory.read32, h.blk_full h8, Nat.reduceAdd, Nat.reduceLT]

/-- A key that has not overflowed is visible whole. -/
theorem keyBytes_eq (hmax : s.KLEN ≤ s.cfg.keyBytesMax) : keyBytes s.KEY s.KLEN = keyBytes t.KEY t.KLEN := by
  rw [← h.klen]
  exact keyBytes_congr _ _ _ fun n hn => h.key n hn (hn.trans_le hmax)

/-! ### Each update of the state keeps states alike -/

theorem answered {r r' : Response} (hr : r = r') : (answered s r).SameVisible (answered t r') :=
  { h with rsp := congrArg some hr }

theorem withHost (rest : List HostMove) : State.SameVisible { s with host := rest } { t with host := rest } :=
  { h with host := rfl }

theorem takeResponse : (takeResponse s).SameVisible (takeResponse t) :=
  { h with rsp := rfl, taken := by rw [takeResponse_taken, takeResponse_taken, h.taken, h.rsp] }

/-- After reset no byte and no table is covered any more. -/
theorem resetEngine : (resetEngine s).SameVisible (resetEngine t) :=
  { h with
    klen := rfl, blen := rfl, sv := rfl, rsp := rfl
    key := fun _ hn => nomatch hn
    blk := fun _ hn => nomatch hn
    table := fun hv => nomatch hv }

theorem keyCleared : State.SameVisible { s with KLEN := 0 } { t with KLEN := 0 } :=
  { h with klen := rfl, key := fun _ hn => nomatch hn }

theorem blockCleared : State.SameVisible { s with BLEN := 0 } { t with BLEN := 0 } :=
  { h with blen := rfl, blk := fun _ hn => nomatch hn }

/-- A byte of KEY that a KPUSH newly covers is the byte it stores. -/
theorem keyPushed (hs : s.KEY.wf) (ht : t.KEY.wf) (imm8 : Byte) :
    (keyPushed s imm8).SameVisible (keyPushed t imm8) :=
  { h with
    klen := by rw [keyPushed_KLEN, keyPushed_KLEN, h.cfg, h.klen]
    key := fun n hn hmax => by
      rw [read_keyPushed hs, read_keyPushed ht, ← h.cfg, ← h.klen]
      split
      · rfl
      · next hnot =>
        have hlt : n < s.KLEN := by
          rw [keyPushed_KLEN, klenPushed_eq_min] at hn
          rw [keyPushed_cfg] at hmax
          omega
        exact h.key n hlt hmax }

/-- A byte of BLK that a BPUSH newly covers is the byte it stores. -/
theorem blockPushed (hs : s.BLK.wf) (ht : t.BLK.wf) (imm8 : Byte) :
    (blockPushed s imm8).SameVisible (blockPushed t imm8) :=
  { h with
    blen := by rw [blockPushed_BLEN, blockPushed_BLEN, h.blen]
    blk := fun n hn h8 => by
      rw [read_blockPushed hs, read_blockPushed ht, ← h.blen]
      split
      · rfl
      · next hnot =>
        have hlt : n < s.BLEN := by
          rw [blockPushed_BLEN, blenPushed_eq_min] at hn
          omega
        exact h.blk n hlt h8 }

/-- EXPAND's table comes from the visible key bytes alone; what L, c, A, B, i, j and k held does not enter. -/
theorem expanded (hmax : s.KLEN ≤ s.cfg.keyBytesMax) : (expanded s).SameVisible (expanded t) :=
  { h with
    sv := rfl
    table := fun _ => by rw [expanded_S, expanded_S, h.keyBytes_eq hmax] }

theorem rotated (hs : s.BLK.wf) (ht : t.BLK.wf) (x : Word) : (rotated s x).SameVisible (rotated t x) :=
  { h with blk := fun n hn h8 => read_storeA_congr hs ht (h.blk n hn h8) x }

theorem ciphered (hs : s.BLK.wf) (ht : t.BLK.wf) (n : Fin 26) (p : Word × Word) :
    (ciphered s n p).SameVisible (ciphered t n p) :=
  { h with blk := fun n hn h8 => read_storeAB_congr hs ht (h.blk n hn h8) p.1 p.2 }

end State.SameVisible

/-- A command takes states that look alike to states that look alike, with the same response: the conditions of its
effect, its response and what it writes are made of what is visible. -/
theorem Effect.sameVisible {s t s' : State} {i : Instr} (hs : s.WF) (ht : t.WF) (h : s.SameVisible t)
    (he : Effect s i s') : ∃ t', Effect t i t' ∧ s'.SameVisible t' := by
  cases he with
  | overflow hk => exact ⟨_, .overflow (h.klen ▸ h.cfg ▸ hk), h.answered (by rw [h.cfg])⟩
  | invalidKey hk h4 => exact ⟨_, .invalidKey (h.klen ▸ h.cfg ▸ hk) (h.klen ▸ h4), h.answered (by rw [h.klen])⟩
  | cipherError i hi hn =>
    exact ⟨_, .cipherError i hi (h.blen ▸ h.sv ▸ hn), h.answered (by rw [h.cipherMask_eq])⟩
  | rotateError i hi hn => exact ⟨_, .rotateError i hi (h.blen ▸ hn), h.answered rfl⟩
  | srdError idx hn => exact ⟨_, .srdError idx (h.sv ▸ hn), h.answered (by rw [h.tableReadMask_eq])⟩
  | brdError idx hn => exact ⟨_, .brdError idx (h.blen ▸ hn), h.answered rfl⟩
  | stat => exact ⟨_, .stat, h.answered (by rw [h.statusWord_eq])⟩
  | kclr => exact ⟨_, .kclr, h.keyCleared.answered rfl⟩
  | kpush imm8 =>
    exact ⟨_, .kpush imm8, (h.keyPushed hs.key_wf ht.key_wf imm8).answered (by rw [h.cfg, h.klen])⟩
  | expand hk h4 =>
    have hmax : s.KLEN ≤ s.cfg.keyBytesMax := by have := hs.klen_le; omega
    exact ⟨_, .expand (h.klen ▸ h.cfg ▸ hk) (h.klen ▸ h4), (h.expanded hmax).answered (by rw [h.klen])⟩
  | srd idx hv hi => exact ⟨_, .srd idx (h.sv ▸ hv) hi, h.answered (by rw [h.table hv])⟩
  | bclr => exact ⟨_, .bclr, h.blockCleared.answered rfl⟩
  | bpush imm8 => exact ⟨_, .bpush imm8, (h.blockPushed hs.blk_wf ht.blk_wf imm8).answered (by rw [h.blen])⟩
  | brd idx h8 hi => exact ⟨_, .brd idx h8 (h.blen ▸ hi), h.answered (by rw [h.blk idx hi h8])⟩
  | enc h8 hv =>
    rw [h.table hv, h.blockA_eq h8, h.blockB_eq h8]
    exact ⟨_, .enc (h.blen ▸ h8) (h.sv ▸ hv), (h.ciphered hs.blk_wf ht.blk_wf 11 _).answered rfl⟩
  | dec h8 hv =>
    rw [h.table hv, h.blockA_eq h8, h.blockB_eq h8]
    exact ⟨_, .dec (h.blen ▸ h8) (h.sv ▸ hv), (h.ciphered hs.blk_wf ht.blk_wf 1 _).answered rfl⟩
  | rotl h8 =>
    rw [h.blockA_eq h8, h.blockB_eq h8]
    exact ⟨_, .rotl (h.blen ▸ h8), (h.rotated hs.blk_wf ht.blk_wf _).answered rfl⟩
  | rotr h8 =>
    rw [h.blockA_eq h8, h.blockB_eq h8]
    exact ⟨_, .rotr (h.blen ▸ h8), (h.rotated hs.blk_wf ht.blk_wf _).answered rfl⟩

/-- Settles O46: both states make the host's one next move, and a command runs on states that still look alike. -/
theorem unspecifiedStorageIsUnobservable : Obligations.UnspecifiedStorageIsUnobservable := by
  intro s t s' hs ht h hstep
  suffices ∃ t', StepEffect t t' ∧ s'.SameVisible t' by
    obtain ⟨t', hse, hvis⟩ := this
    exact ⟨t', hse.step_eq, hvis⟩
  cases step_effect hstep with
  | idle hh => exact ⟨t, .idle (h.host ▸ hh), h⟩
  | take rest hh => exact ⟨_, .take rest (h.host ▸ hh), (h.withHost rest).takeResponse⟩
  | reset rest hh => exact ⟨_, .reset rest (h.host ▸ hh), (h.withHost rest).resetEngine⟩
  | illegal w rest e hh hdec =>
    exact ⟨_, .illegal w rest e (h.host ▸ hh) hdec, (h.withHost rest).takeResponse.answered rfl⟩
  | command i rest s' hh he hdec =>
    obtain ⟨t', he', hvis⟩ :=
      he.sameVisible (wf_takeResponse (wf_withHost hs rest)) (wf_takeResponse (wf_withHost ht rest))
        (h.withHost rest).takeResponse
    exact ⟨t', .command i rest t' (h.host ▸ hh) he' hdec, hvis⟩

end Sys2Proof.Machine
end

section
/-! Bytes and words (rule R41): `be32` and `bytes4` undo each other, and the byte values of a word. -/

namespace Sys2Proof.Machine

/-- The bytes of a word made from four bytes are those bytes (rule R41): the two agree bit by bit. -/
theorem bytes4_be32 (b0 b1 b2 b3 : Byte) : bytes4 (be32 b0 b1 b2 b3) = (b0, b1, b2, b3) := by
  simp only [bytes4, Prod.mk.injEq]
  refine ⟨?_, ?_, ?_, ?_⟩ <;>
    · refine BitVec.eq_of_getLsbD_eq fun i hi => ?_
      rw [BitVec.getLsbD_extractLsb', getLsbD_be32]
      grind

/-- The word made from a word's four bytes is that word (rule R41): the two agree bit by bit. -/
theorem be32_bytes4 (v : Word) : be32 (bytes4 v).1 (bytes4 v).2.1 (bytes4 v).2.2.1 (bytes4 v).2.2.2 = v := by
  refine BitVec.eq_of_getLsbD_eq fun i hi => ?_
  rw [getLsbD_be32]
  simp only [bytes4, BitVec.getLsbD_extractLsb']
  grind

/-- Settles O8: each byte of `bytes4` is an extracted field, so its value is a quotient and a remainder. -/
theorem bytesAndWordsAreBigEndian : Obligations.BytesAndWordsAreBigEndian := by
  refine ⟨fun b0 b1 b2 b3 => ⟨?_, bytes4_be32 b0 b1 b2 b3⟩, fun v => ⟨be32_bytes4 v, ?_⟩⟩
  · rw [toNat_be32]
    ring
  · have hv := v.isLt
    simp only [bytes4, BitVec.extractLsb'_toNat, Nat.shiftRight_eq_div_pow]
    exact ⟨Nat.mod_eq_of_lt (by omega), trivial, trivial, by omega⟩

end Sys2Proof.Machine
end

section
/-! The key partition drops the trailing partial chunk (rules R42, R100), so no table depends on it (rule R106). -/

namespace Sys2Proof.Machine

/-- The key words are those of the whole chunks alone (rules R42, R100). -/
theorem keyWords_take_wholeChunks : ∀ key : List Byte, keyWords (key.take (4 * (key.length / 4))) = keyWords key
  | [] | [_] | [_, _] | [_, _, _] => by simp [keyWords]
  | b0 :: b1 :: b2 :: b3 :: rest => by
    have hlen : 4 * ((b0 :: b1 :: b2 :: b3 :: rest).length / 4) = 4 * (rest.length / 4) + 4 := by
      simp only [List.length_cons]
      omega
    rw [hlen, keyWords_cons, ← keyWords_take_wholeChunks rest]
    rfl

/-- `derive` sees a key through its words alone (rule R105). -/
theorem derive_congr {key1 key2 : List Byte} (h : keyWords key1 = keyWords key2) : derive key1 = derive key2 := by
  rw [derive_eq, derive_eq, h]

/-- Settles O25: the two keys have the same whole chunks, so the same key words. -/
theorem deriveIgnoresPartialChunk : Obligations.DeriveIgnoresPartialChunk := by
  intro key1 key2 _ hchunks
  refine derive_congr ?_
  rw [← keyWords_take_wholeChunks key1, hchunks, keyWords_take_wholeChunks key2]

end Sys2Proof.Machine
end

section
/-! The command stream (rules R46, R47, R186): each command transferred hands over the response that waits and leaves
its own on the port. -/

namespace Sys2Proof.Machine

/-- A command word touches neither the host's further moves nor the responses already taken (rule R20). -/
theorem runWord_outside {w : Command} {s t : State} (h : runWord w s = .next t) :
    t.host = s.host ∧ t.taken = s.taken := by
  rcases runWord_cases w s with ⟨i, -, hrun⟩ | ⟨e, hdec, -⟩
  · obtain ⟨-, hhost, htaken, -⟩ := exec_outside i s t (hrun.symm.trans h)
    exact ⟨hhost, htaken⟩
  · obtain rfl := next_unique (runWord_of_illegal hdec s) h
    exact ⟨rfl, rfl⟩

/-- A step on a command transfer hands over the waiting response and leaves the command's own (rules R46, R47). -/
theorem step_command_answers {s : State} {w : Command} {rest : List HostMove} (h : s.host = .command w :: rest) :
    ∃ t r, step s = .next t ∧ t.rsp = some r ∧ t.host = rest ∧ t.taken = s.taken ++ s.rsp.toList := by
  obtain ⟨t, r, hrun, hrsp⟩ := runWord_answers w (takeResponse { s with host := rest })
  obtain ⟨hhost, htaken⟩ := runWord_outside hrun
  exact ⟨t, r, (step_command h).trans hrun, hrsp, hhost, htaken⟩

/-- Settles O10, by induction on the commands: the first one's response stands on the port when the others start. -/
theorem oneResponsePerCommandInOrder : Obligations.OneResponsePerCommandInOrder := by
  intro ws
  induction ws with
  | nil => exact fun s hhost => ⟨s, [], rfl, hhost, rfl, (List.append_nil _).symm, fun n hn => nomatch hn⟩
  | cons w ws ih =>
    intro s hhost
    obtain ⟨u, r, hstep, hrsp, hhost', htaken⟩ := step_command_answers hhost
    obtain ⟨t, rs, hrun, hidle, hlen, hall, hnth⟩ := ih u hhost'
    refine ⟨t, r :: rs, ?_, hidle, ?_, ?_, ?_⟩
    · exact (run_succ ws.length s u hstep).trans hrun
    · simp only [List.length_cons, hlen]
    · simp [hall, htaken, hrsp]
    · intro n hn
      rw [run_succ n s u hstep]
      cases n with
      | zero => exact ⟨u, run_zero u, hrsp⟩
      | succ n => exact hnth n (Nat.lt_of_succ_lt_succ hn)

/-- Settles O55: `takeResponse` moves the waiting response to the responses taken. -/
theorem idleKeepsStateAndTakeHandsOver : Obligations.IdleKeepsStateAndTakeHandsOver := by
  refine ⟨fun s h => step_idle h, fun s rest h =>
    ⟨_, step_take h, rfl, rfl, rfl, rfl, fun r hr => ?_, fun hr => ?_⟩⟩
  · simp [hr]
  · simp [hr]

end Sys2Proof.Machine
end

section
/-! The reading commands (rule R45): STAT, SRD and BRD change the response port alone and do not look at it. -/

namespace Sys2Proof.Machine

/-- A reading command puts a response on the port, and whatever stands on the port before, it is the same one
(rules R45, R111, R141, R160). -/
theorem Effect.read_repeats {s t : State} {idx : Nat} {i : Instr} (he : Effect s i t)
    (hi : i = .stat ∨ i = .srd idx ∨ i = .brd idx) :
    ∃ r, t = answered s r ∧ ∀ r', Effect (answered s r') i t := by
  cases he with
  | stat => exact ⟨_, rfl, fun _ => .stat⟩
  | srd n hv h => exact ⟨_, rfl, fun _ => .srd n hv h⟩
  | srdError n h => exact ⟨_, rfl, fun _ => .srdError n h⟩
  | brd n h8 h => exact ⟨_, rfl, fun _ => .brd n h8 h⟩
  | brdError n h => exact ⟨_, rfl, fun _ => .brdError n h⟩
  | cipherError _ hc | rotateError _ hc => rcases hc with rfl | rfl <;> simp at hi
  | _ => simp at hi

/-- Settles O9: the response is the same whatever stood on the port before. -/
theorem readsHaveNoSideEffects : Obligations.ReadsHaveNoSideEffects := by
  intro s t idx i hi hexec
  obtain ⟨r, rfl, hrepeat⟩ := (exec_effect i s t hexec).read_repeats hi
  exact ⟨rfl, (hrepeat r).exec_eq⟩

end Sys2Proof.Machine
end

section
/-! Loading a buffer and running a command on it (rules R48, R70): a clear and one push per byte leave the buffer
holding these bytes and the other parts of the state as they were. -/

namespace Sys2Proof.Machine

/-- A list of commands starts with its first. -/
theorem execAll_cons {i : Instr} {s t : State} (h : exec i s = .next t) (is : List Instr) :
    execAll (i :: is) s = execAll is t := by
  simp only [execAll, h]

/-- A list of one command. -/
theorem execAll_singleton {i : Instr} {s t : State} (h : exec i s = .next t) : execAll [i] s = .next t :=
  execAll_cons h []

/-- Two lists of commands run one after the other. -/
theorem execAll_append {is : List Instr} {s t : State} (h : execAll is s = .next t) (js : List Instr) :
    execAll (is ++ js) s = execAll js t := by
  induction is generalizing s with
  | nil => cases h; rfl
  | cons i is ih =>
    obtain ⟨u, hu⟩ := exec_next i s
    rw [execAll_cons hu] at h
    exact (execAll_cons hu _).trans (ih h)

/-- If one push takes "holds `bytes`" to "holds `bytes ++ [b]`" while there is room, the pushes of a list that fits
append the list. -/
theorem execAll_pushes {push : Byte → Instr} {Holds : List Byte → State → Prop} {size : Nat}
    (hpush : ∀ {bytes t} b, Holds bytes t → bytes.length < size →
      ∃ u, exec (push b) t = .next u ∧ Holds (bytes ++ [b]) u)
    {front : List Byte} (back : List Byte) {t : State} (ht : Holds front t)
    (hfit : (front ++ back).length ≤ size) :
    ∃ u, execAll (back.map push) t = .next u ∧ Holds (front ++ back) u := by
  induction back generalizing front t with
  | nil => exact ⟨t, rfl, by rwa [List.append_nil]⟩
  | cons b back ih =>
    have hroom : front.length < size := by
      simp only [List.length_append, List.length_cons] at hfit
      omega
    obtain ⟨u, hexec, hu⟩ := hpush b ht hroom
    rw [List.append_cons] at hfit ⊢
    obtain ⟨v, hrun, hv⟩ := ih hu hfit
    exact ⟨v, (execAll_cons hexec _).trans hrun, hv⟩

/-- A byte written behind the first n bytes comes after them. -/
theorem keyBytes_write_succ {m : Memory} (h : m.wf) (n : Nat) (b : Byte) :
    keyBytes (m.write n b) (n + 1) = keyBytes m n ++ [b] := by
  have hfront : keyBytes (m.write n b) n = keyBytes m n :=
    keyBytes_congr _ _ n fun k hk => by rw [Memory.read_write _ _ _ _ h, if_neg (by omega)]
  have hlast : (m.write n b).read n = b := by rw [Memory.read_write _ _ _ _ h, if_pos rfl]
  calc keyBytes (m.write n b) (n + 1)
    _ = keyBytes (m.write n b) n ++ [(m.write n b).read n] := by simp [keyBytes, List.range_succ]
    _ = keyBytes m n ++ [b] := by rw [hfront, hlast]

/-! ### The key buffer -/

/-- A state reached from `s` by loading the key bytes alone. -/
structure KeyLoaded (s : State) (key : List Byte) (t : State) : Prop where
  wf : t.KEY.wf
  klen : t.KLEN = key.length
  bytes : keyBytes t.KEY key.length = key
  block : SameBlock s t
  outside : SameOutside s t

/-- KCLR leaves the empty key (rule R108). -/
theorem KeyLoaded.kclr {s : State} (h : s.KEY.wf) :
    ∃ t, exec .kclr s = .next t ∧ KeyLoaded s [] t :=
  ⟨_, rfl, h, rfl, rfl, ⟨rfl, fun _ => rfl⟩, rfl, rfl, rfl⟩

/-- KPUSH appends its byte while the buffer has room (rule R109). -/
theorem KeyLoaded.kpush {s t : State} {key : List Byte} (b : Byte) (h : KeyLoaded s key t)
    (hroom : key.length < s.cfg.keyBytesMax) :
    ∃ u, exec (.kpush b) t = .next u ∧ KeyLoaded s (key ++ [b]) u := by
  obtain ⟨hwf, hklen, hbytes, hblock, hcfg, hports⟩ := h
  have hlt : t.KLEN < t.cfg.keyBytesMax := by rwa [hklen, hcfg]
  have hKEY : (keyPushed t b).KEY = t.KEY.write key.length b := by rw [keyPushed_KEY, if_pos hlt, hklen]
  have hKLEN : (keyPushed t b).KLEN = (key ++ [b]).length := by
    rw [keyPushed_KLEN, klenPushed, if_pos hlt, hklen, List.length_append]
    rfl
  refine ⟨_, (Effect.kpush b).exec_eq, ?_, hKLEN, ?_, hblock, hcfg, hports⟩
  · rw [answered_KEY, hKEY]
    exact Memory.wf_write _ _ _ hwf
  · rw [answered_KEY, hKEY, List.length_append]
    exact (keyBytes_write_succ hwf _ b).trans (by rw [hbytes])

/-- `KEY` of rule R70 loads a key that fits the buffer. -/
theorem execAll_keySequence {s : State} {key : List Byte} (hwf : s.KEY.wf) (hfit : key.length ≤ s.cfg.keyBytesMax) :
    ∃ t, execAll (keySequence key) s = .next t ∧ KeyLoaded s key t := by
  obtain ⟨t, hclr, ht⟩ := KeyLoaded.kclr hwf
  obtain ⟨u, hrun, hu⟩ := execAll_pushes KeyLoaded.kpush key ht hfit
  exact ⟨u, (execAll_cons hclr _).trans hrun, hu⟩

/-- Settles O11: EXPAND on the loaded key schedules the key's own words. -/
theorem keyLoadThenExpandDerives : Obligations.KeyLoadThenExpandDerives := by
  intro s key hwf h4 hfit
  obtain ⟨t, hload, -, hklen, hbytes, hblock, hcfg, hports⟩ := execAll_keySequence hwf hfit
  have hexpand : exec .expand t = .next (answered (expanded t) (response okCode (expandWord t.KLEN))) :=
    execExpand_ok t (by rw [hcfg]; omega) (by omega)
  have hderive : derive key = some (expanded t).S := by
    rw [expanded_S, hklen, ← derive_keyBytes t.KEY h4, hbytes]
  refine ⟨_, (execAll_append hload _).trans (execAll_singleton hexpand), hderive, rfl, hklen, ?_,
    hblock, hcfg, hports⟩
  rw [hklen]
  rfl

/-! ### The block buffer -/

/-- A state reached from `s` by loading the block bytes alone. -/
structure BlockLoaded (s : State) (block : List Byte) (t : State) : Prop where
  wf : t.BLK.wf
  blen : t.BLEN = block.length
  bytes : keyBytes t.BLK block.length = block
  key : SameKey s t
  table : SameTable s t
  outside : SameOutside s t

/-- BCLR leaves the empty block (rule R139). -/
theorem BlockLoaded.bclr {s : State} (h : s.BLK.wf) :
    ∃ t, exec .bclr s = .next t ∧ BlockLoaded s [] t :=
  ⟨_, rfl, h, rfl, rfl, ⟨rfl, fun _ => rfl⟩, ⟨rfl, rfl⟩, rfl, rfl, rfl⟩

/-- BPUSH appends its byte while the buffer has room (rule R140). -/
theorem BlockLoaded.bpush {s t : State} {block : List Byte} (b : Byte) (h : BlockLoaded s block t)
    (hroom : block.length < 8) :
    ∃ u, exec (.bpush b) t = .next u ∧ BlockLoaded s (block ++ [b]) u := by
  obtain ⟨hwf, hblen, hbytes, hkey, htable, houtside⟩ := h
  have hlt : t.BLEN < 8 := by rwa [hblen]
  have hBLK : (blockPushed t b).BLK = t.BLK.write block.length b := by rw [blockPushed_BLK, if_pos hlt, hblen]
  have hBLEN : (blockPushed t b).BLEN = (block ++ [b]).length := by
    rw [blockPushed_BLEN, blenPushed, if_pos hlt, hblen, List.length_append]
    rfl
  refine ⟨_, (Effect.bpush b).exec_eq, ?_, hBLEN, ?_, hkey, htable, houtside⟩
  · rw [answered_BLK, hBLK]
    exact Memory.wf_write _ _ _ hwf
  · rw [answered_BLK, hBLK, List.length_append]
    exact (keyBytes_write_succ hwf _ b).trans (by rw [hbytes])

/-- `BLOCK` of rule R70 loads a block of at most 8 bytes. -/
theorem execAll_blockSequence {s : State} {block : List Byte} (hwf : s.BLK.wf) (hfit : block.length ≤ 8) :
    ∃ t, execAll (blockSequence block) s = .next t ∧ BlockLoaded s block t := by
  obtain ⟨t, hclr, ht⟩ := BlockLoaded.bclr hwf
  obtain ⟨u, hrun, hu⟩ := execAll_pushes BlockLoaded.bpush block ht hfit
  exact ⟨u, (execAll_cons hclr _).trans hrun, hu⟩

/-- The words of a full block are made of its bytes in order (rules R41, R43). -/
theorem BlockLoaded.words {s t : State} {b0 b1 b2 b3 b4 b5 b6 b7 : Byte}
    (h : BlockLoaded s [b0, b1, b2, b3, b4, b5, b6, b7] t) :
    blockA t = be32 b0 b1 b2 b3 ∧ blockB t = be32 b4 b5 b6 b7 := by
  have hbytes : keyBytes t.BLK 8 = [b0, b1, b2, b3, b4, b5, b6, b7] := h.bytes
  simp only [keyBytes, List.range_eq_range', List.range', List.map_cons, List.map_nil, List.cons.injEq] at hbytes
  obtain ⟨h0, h1, h2, h3, h4, h5, h6, h7, -⟩ := hbytes
  exact ⟨by rw [blockA, Memory.read32, h0, h1, h2, h3], by rw [blockB, Memory.read32, h4, h5, h6, h7]⟩

/-- Storing A and B puts A's bytes first, then B's, most significant first (rules R41, R43). -/
theorem read_storeAB {m : Memory} (h : m.wf) (x y : Word) {n : Nat} (hn : n < 8) :
    (storeAB m x y).read n =
      [(bytes4 x).1, (bytes4 x).2.1, (bytes4 x).2.2.1, (bytes4 x).2.2.2,
        (bytes4 y).1, (bytes4 y).2.1, (bytes4 y).2.2.1, (bytes4 y).2.2.2].getD n 0#8 := by
  rw [storeAB, Memory.read_write32 _ _ _ _ (Memory.wf_write32 _ _ _ h), Memory.read_write32 _ _ _ _ h]
  interval_cases n <;> rfl

/-- ENC and DEC on a loaded block with a table write the encryption or decryption of its words (rules R142, R143). -/
theorem BlockLoaded.cipher {s t : State} {b0 b1 b2 b3 b4 b5 b6 b7 : Byte}
    (h : BlockLoaded s [b0, b1, b2, b3, b4, b5, b6, b7] t) (hsv : s.SV = true) {op : Instr} {out : Word × Word}
    (hop : (op = .enc ∧ out = encrypt s.S (be32 b0 b1 b2 b3) (be32 b4 b5 b6 b7)) ∨
      (op = .dec ∧ out = decrypt s.S (be32 b0 b1 b2 b3) (be32 b4 b5 b6 b7))) :
    ∃ i, exec op t = .next (answered (ciphered t i out) (response okCode 0#32)) := by
  obtain ⟨hA, hB⟩ := h.words
  obtain ⟨hS, hSV⟩ := h.table
  have hsv' : t.SV = true := hSV.trans hsv
  rw [← hS, ← hA, ← hB] at hop
  rcases hop with ⟨rfl, rfl⟩ | ⟨rfl, rfl⟩
  · exact ⟨11, execEnc_ok t h.blen hsv'⟩
  · exact ⟨1, execDec_ok t h.blen hsv'⟩

/-- Settles O12: the cipher command stores the two words over the loaded block, and BRD reads their bytes. -/
theorem blockLoadCipherRead : Obligations.BlockLoadCipherRead := by
  intro s b0 b1 b2 b3 b4 b5 b6 b7 hwf hsv op out hop
  obtain ⟨t, hload, ht⟩ :=
    execAll_blockSequence (block := [b0, b1, b2, b3, b4, b5, b6, b7]) hwf (Nat.le_refl 8)
  obtain ⟨i, hexec⟩ := ht.cipher hsv hop
  refine ⟨_, (execAll_append hload _).trans (execAll_singleton hexec), rfl, ht.key, ht.table, ht.outside,
    fun n hn => ⟨_, execBrd_ok _ n hn (hn.trans_eq ht.blen.symm), ?_⟩⟩
  rw [← read_storeAB ht.wf out.1 out.2 hn]
  rfl

end Sys2Proof.Machine
end

section
/-! The opcode map and the decoder (rules R60 to R65): the map's rows have different opcodes, the row that selects a
word gives its command, and a word no row selects is rejected by name. -/

namespace Sys2Proof.Machine

open Sys2Proof.Laws
open Sys2Proof.Laws.EncodesInItsRow (opField_append argField_append)

/-- Settles O14: the decoder reads the opcode and the operand from the fields the encoder writes. -/
theorem decodeEncodeRoundTrip : Obligations.DecodeEncodeRoundTrip :=
  decode_encode

/-- An operand that fits its field gives a well-formed command (rules R62, R69). -/
theorem wellFormed_instr (m : Mnemonic) {n : Nat} (h : n ≤ 255) : (m.instr n).wellFormed = true := by
  cases m with
  | SRD | BRD => exact decide_eq_true (Nat.lt_succ_of_le h)
  | _ => rfl

/-- What every row's pattern and mask are (rules R61, R63): the mask has all bits of the opcode, and those of `arg`
with format Z alone; the pattern has the opcode above 0x00. -/
theorem pattern_mask_of_row {r : OpcodeRow} (hr : r ∈ opcodeTable) :
    r.pattern = opField r.pattern ++ 0#8 ∧ r.mask = 0xFF#8 ++ (if r.format = .z then 0xFF#8 else 0#8) := by
  have hall : ∀ r ∈ opcodeTable,
      r.pattern = opField r.pattern ++ 0#8 ∧ r.mask = 0xFF#8 ++ (if r.format = .z then 0xFF#8 else 0#8) := by
    decide
  exact hall r hr

/-- Words are equal when both their fields are (rule R60). -/
theorem append_inj {op op' arg arg' : Byte} : op ++ arg = op' ++ arg' ↔ op = op' ∧ arg = arg' := by
  refine ⟨fun h => ⟨?_, ?_⟩, fun ⟨hop, harg⟩ => by rw [hop, harg]⟩
  · rw [← opField_append op arg, h, opField_append]
  · rw [← argField_append op arg, h, argField_append]

/-- A row selects the words of its opcode, and with format Z only the one whose `arg` is 0x00 (rules R61, R63). -/
theorem selects_iff {r : OpcodeRow} (hr : r ∈ opcodeTable) (w : Command) :
    r.selects w = true ↔ opField w = opField r.pattern ∧ (r.format = .z → argField w = 0#8) := by
  obtain ⟨hpattern, hmask⟩ := pattern_mask_of_row hr
  have hop : opField w &&& 0xFF#8 = opField w := BitVec.and_allOnes
  have harg : argField w &&& 0xFF#8 = argField w := BitVec.and_allOnes
  rw [OpcodeRow.selects, beq_iff_eq, hmask, hpattern, opField_append, ← opField_append_argField w,
    BitVec.and_append, append_inj, opField_append, argField_append, hop]
  split
  · next hz => simp [hz, harg]
  · next hz => simp [hz]

/-- The encoding of a row's command: the row's opcode, and below it the operand unless the format is Z (rules R60,
R61, R63). -/
theorem encode_instr_of_row {r : OpcodeRow} (hr : r ∈ opcodeTable) (arg : Byte) :
    encode (r.mnemonic.instr arg.toNat) = opField r.pattern ++ (if r.format = .z then 0#8 else arg) := by
  simp only [opcodeTable, List.mem_cons, List.not_mem_nil, or_false] at hr
  rcases hr with rfl | rfl | rfl | rfl | rfl | rfl | rfl | rfl | rfl | rfl | rfl | rfl <;>
    simp [encode, Mnemonic.instr] <;> rfl

/-- The row that selects a word gives the command it decodes to, with `arg` as operand (rules R63, R64). -/
theorem decode_of_selects {r : OpcodeRow} (hr : r ∈ opcodeTable) {w : Command} (h : r.selects w = true) :
    decode w = .ok (r.mnemonic.instr (argField w).toNat) := by
  obtain ⟨hop, harg⟩ := (selects_iff hr w).1 h
  have henc : encode (r.mnemonic.instr (argField w).toNat) = w := by
    rw [encode_instr_of_row hr, ← hop]
    split
    · next hz => rw [← harg hz, opField_append_argField]
    · exact opField_append_argField w
  have hwf := wellFormed_instr r.mnemonic (Nat.le_of_lt_succ (argField w).isLt)
  rw [← decode_encode _ hwf, henc]

/-- Every command's encoding lies in its own row of the opcode map (rules R60, R63). -/
theorem encodesInItsRow : ∀ i : Instr, EncodesInItsRow.Statement i
  | .stat => EncodesInItsRow.stat
  | .kclr => EncodesInItsRow.kclr
  | .kpush imm8 => EncodesInItsRow.kpush imm8
  | .expand => EncodesInItsRow.expand
  | .srd idx => EncodesInItsRow.srd idx
  | .bclr => EncodesInItsRow.bclr
  | .bpush imm8 => EncodesInItsRow.bpush imm8
  | .brd idx => EncodesInItsRow.brd idx
  | .enc => EncodesInItsRow.enc
  | .dec => EncodesInItsRow.dec
  | .rotl => EncodesInItsRow.rotl
  | .rotr => EncodesInItsRow.rotr

/-- A command that a word decodes to is well formed: an index comes from the 8-bit field (rule R62). -/
theorem wellFormed_of_decode {w : Command} {i : Instr} (h : decode w = .ok i) : i.wellFormed = true := by
  have formatZ (i' : Instr) (hwf : i'.wellFormed = true) (hz : decodeZ i' w = .ok i) : i.wellFormed = true := by
    obtain ⟨rfl, -⟩ := decodeZ_eq_ok hz
    exact hwf
  unfold decode at h
  split at h
  case h_3 | h_7 => cases h; rfl -- format B, KPUSH and BPUSH
  case h_5 | h_8 => -- format X, SRD and BRD
    cases h
    exact decide_eq_true (argField w).isLt
  case h_13 => cases h -- an unused opcode
  all_goals exact formatZ _ rfl h

/-- Settles O15: the decoder takes every operand from a field that the encoder fills with it. -/
theorem encodeDecodeRoundTrip : Obligations.EncodeDecodeRoundTrip :=
  fun _ _ h => ⟨wellFormed_of_decode h, encode_of_decode h⟩

/-- A word is legal when a row selects it (rules R63, R64). -/
theorem selects_iff_decode_ok (w : Command) :
    (∃ r ∈ opcodeTable, r.selects w = true) ↔ ∃ i, decode w = .ok i := by
  refine ⟨fun ⟨r, hr, hsel⟩ => ⟨_, decode_of_selects hr hsel⟩, fun ⟨i, hi⟩ => ?_⟩
  obtain ⟨⟨r, hr, -, hsel⟩, -⟩ := encodesInItsRow i (wellFormed_of_decode hi)
  exact ⟨r, hr, encode_of_decode hi ▸ hsel⟩

/-- The two rejections (rule R65). -/
theorem decode_error_cases {w : Command} {e : IllegalWord} (h : decode w = .error e) :
    e = .unusedOpcode (opField w) ∨ e = .nonzeroArg (opField w) (argField w) := by
  have formatZ (i : Instr) (hz : decodeZ i w = .error e) : e = .nonzeroArg (opField w) (argField w) := by
    unfold decodeZ at hz
    split at hz
    · cases hz
    · exact (Except.error.inj hz).symm
  unfold decode at h
  split at h
  case h_3 | h_5 | h_7 | h_8 => cases h -- formats B and X
  case h_13 => exact .inl (Except.error.inj h).symm -- an unused opcode
  all_goals exact .inr (formatZ _ h)

/-- A word that no row selects is rejected (rules R64, R65). -/
theorem decode_error_of_not_selected {w : Command} (h : ∀ r ∈ opcodeTable, r.selects w = false) :
    ∃ e, decode w = .error e := by
  match hdec : decode w with
  | .error e => exact ⟨e, rfl⟩
  | .ok i =>
    obtain ⟨r, hr, hsel⟩ := (selects_iff_decode_ok w).2 ⟨i, hdec⟩
    exact absurd hsel (by simp [h r hr])

/-- The rows have different opcodes (rule R63). -/
theorem opcodes_nodup : (opcodeTable.map fun r => opField r.pattern).Nodup := by
  decide

/-- At most one row selects a word, the row of its opcode (rule R63). -/
theorem length_filter_selects_le (w : Command) : (opcodeTable.filter fun r => r.selects w).length ≤ 1 := by
  have hopcodes : ∀ op ∈ (opcodeTable.filter fun r => r.selects w).map (fun r => opField r.pattern),
      op = opField w := by
    intro op hop
    obtain ⟨r, hr, rfl⟩ := List.mem_map.1 hop
    obtain ⟨hr, hsel⟩ := List.mem_filter.1 hr
    exact ((selects_iff hr w).1 hsel).1.symm
  have hnodup : ((opcodeTable.filter fun r => r.selects w).map fun r => opField r.pattern).Nodup :=
    opcodes_nodup.sublist (List.filter_sublist.map _)
  rw [List.eq_replicate_of_mem hopcodes, List.nodup_replicate, List.length_map] at hnodup
  exact hnodup

/-- Settles O13: the rows that select a word share its opcode, and each gives the command the word encodes. -/
theorem decodeFollowsOpcodeTable : Obligations.DecodeFollowsOpcodeTable := by
  have hformat : ∀ r ∈ opcodeTable, r.format = r.mnemonic.format := by decide
  refine fun w => ⟨length_filter_selects_le w, fun r hr hsel => ⟨decode_of_selects hr hsel, hformat r hr⟩,
    fun h => ?_⟩
  obtain ⟨e, he⟩ := decode_error_of_not_selected h
  rcases decode_error_cases he with rfl | rfl
  · exact .inl he
  · exact .inr he

/-- Settles O49: such a word does not decode, so `runWord` answers IllegalCommand on the state with the move
consumed and the waiting response taken. -/
theorem illegalWordAnswersIllegalCommand : Obligations.IllegalWordAnswersIllegalCommand := by
  intro s w rest hsel hhost
  obtain ⟨e, he⟩ := decode_error_of_not_selected hsel
  refine ⟨_, _, (step_command hhost).trans (runWord_of_illegal he _), rfl, ?_, rfl⟩
  exact BitVec.toNat_setWidth_of_le (by decide)

/-- Settles O17: the decoder evaluates on each of the words. -/
theorem writtenWordsDecode : Obligations.WrittenWordsDecode := by
  unfold Obligations.WrittenWordsDecode
  decide

end Sys2Proof.Machine
end

section
/-! The legal words are counted row by row: a format Z row selects one word, a format B or X row 256 (rule R64). -/

namespace Sys2Proof.Machine

open Sys2Proof.Laws.EncodesInItsRow (opField_append argField_append)

/-- All values of a width, each once. -/
def allValues (n : Nat) : List (BitVec n) :=
  (List.finRange (2 ^ n)).map BitVec.ofFin

@[simp] theorem length_allValues (n : Nat) : (allValues n).length = 2 ^ n := by
  simp [allValues]

@[simp] theorem mem_allValues {n : Nat} (v : BitVec n) : v ∈ allValues n :=
  List.mem_map.2 ⟨v.toFin, List.mem_finRange _, rfl⟩

theorem nodup_allValues (n : Nat) : (allValues n).Nodup :=
  (List.nodup_finRange _).map fun _ _ h => congrArg BitVec.toFin h

/-- The words a row selects (rules R61, R63). -/
def rowWords (r : OpcodeRow) : List Command :=
  if r.format = .z then [opField r.pattern ++ 0#8] else (allValues 8).map (opField r.pattern ++ ·)

theorem mem_rowWords {r : OpcodeRow} (hr : r ∈ opcodeTable) (w : Command) :
    w ∈ rowWords r ↔ r.selects w = true := by
  obtain ⟨op, arg, rfl⟩ : ∃ op arg : Byte, w = op ++ arg := ⟨_, _, (opField_append_argField w).symm⟩
  rw [selects_iff hr, opField_append, argField_append, rowWords]
  split
  · next hz => simp [append_inj, hz]
  · next hz => simp [append_inj, hz, eq_comm (a := op)]

/-- All words of a row have its opcode. -/
theorem opField_of_mem_rowWords {r : OpcodeRow} {w : Command} (h : w ∈ rowWords r) : opField w = opField r.pattern := by
  unfold rowWords at h
  split at h
  · rw [List.mem_singleton.1 h, opField_append]
  · obtain ⟨arg, -, rfl⟩ := List.mem_map.1 h
    exact opField_append _ arg

theorem nodup_rowWords (r : OpcodeRow) : (rowWords r).Nodup := by
  unfold rowWords
  split
  · exact List.nodup_singleton _
  · exact (nodup_allValues 8).map fun _ _ h => (append_inj.1 h).2

theorem length_rowWords (r : OpcodeRow) : (rowWords r).length = if r.format = .z then 1 else 256 := by
  unfold rowWords
  split <;> simp

/-- The legal words, row by row. -/
def legalWords : List Command :=
  opcodeTable.flatMap rowWords

theorem mem_legalWords (w : Command) : w ∈ legalWords ↔ ∃ i, decode w = .ok i := by
  rw [← selects_iff_decode_ok, legalWords, List.mem_flatMap]
  exact exists_congr fun r => and_congr_right fun hr => mem_rowWords hr w

/-- No word is in two rows, since the rows have different opcodes. -/
theorem nodup_legalWords : legalWords.Nodup := by
  refine List.nodup_flatMap.2 ⟨fun r _ => nodup_rowWords r, (List.pairwise_map.1 opcodes_nodup).imp ?_⟩
  intro r r' hne w hw hw'
  exact hne ((opField_of_mem_rowWords hw).symm.trans (opField_of_mem_rowWords hw'))

theorem length_legalWords : legalWords.length = 1032 := by
  rw [legalWords, List.length_flatMap, funext length_rowWords]
  rfl

/-- The words that are not legal. -/
def illegalWords : List Command :=
  (allValues 16).filter fun w => !(decode w).isOk

theorem mem_illegalWords (w : Command) : w ∈ illegalWords ↔ ∃ e, decode w = .error e := by
  rw [illegalWords, List.mem_filter, and_iff_right (mem_allValues w)]
  cases decode w <;> simp [Except.isOk, Except.toBool]

/-- Of `m + n` elements, of which `m` have a property, `n` do not have it. -/
theorem length_filter_not {α : Type} {p : α → Bool} {l : List α} {m n : Nat} (hl : l.length = m + n)
    (hp : (l.filter p).length = m) : (l.filter fun x => !p x).length = n := by
  have hsum := l.length_eq_length_filter_add p
  omega

/-- The illegal words are the 65536 words but for the legal ones. -/
theorem length_illegalWords : illegalWords.length = 64504 := by
  have hperm : ((allValues 16).filter fun w => (decode w).isOk).Perm legalWords := by
    refine (List.perm_ext_iff_of_nodup ((nodup_allValues 16).filter _) nodup_legalWords).2 fun w => ?_
    rw [List.mem_filter, and_iff_right (mem_allValues w), mem_legalWords]
    cases decode w <;> simp [Except.isOk, Except.toBool]
  have hall : (allValues 16).length = 1032 + 64504 := length_allValues 16
  exact length_filter_not hall (hperm.length_eq.trans length_legalWords)

/-- Settles O16: the legal words are the rows' words, the illegal ones their complement. -/
theorem legalWordsNumber1032 : Obligations.LegalWordsNumber1032 :=
  ⟨⟨legalWords, nodup_legalWords, length_legalWords, mem_legalWords⟩,
    illegalWords, (nodup_allValues 16).filter _, length_illegalWords, mem_illegalWords⟩

end Sys2Proof.Machine
end

section
/-! The errors of the commands (rules R66, R171 to R176): an error response is InvalidKey, InvalidInput or KeyOverflow,
and each bit of InvalidInput's info word means a precondition that failed. -/

namespace Sys2Proof.Machine

variable (s : State)

/-- The mask of ENC and DEC: bit 0 means a wrong block length, bit 1 a missing table (rule R172). -/
theorem cipherMask_bits :
    (BitVec.ofNat 32 (cipherMask s)).getLsbD 0 = !decide (s.BLEN = 8) ∧
    (BitVec.ofNat 32 (cipherMask s)).getLsbD 1 = !s.SV ∧
    (BitVec.ofNat 32 (cipherMask s)).getLsbD 2 = false := by
  unfold cipherMask blockLengthBit noTableBit
  cases s.SV <;> by_cases h8 : s.BLEN = 8 <;> simp [h8]

/-- The mask of SRD: bit 1 means a missing table, bit 2 an index above 25 (rules R111, R172). -/
theorem tableReadMask_bits (idx : Nat) :
    (BitVec.ofNat 32 (tableReadMask s idx)).getLsbD 0 = false ∧
    (BitVec.ofNat 32 (tableReadMask s idx)).getLsbD 1 = !s.SV ∧
    (BitVec.ofNat 32 (tableReadMask s idx)).getLsbD 2 = decide (26 ≤ idx) := by
  unfold tableReadMask noTableBit indexBit tableIndexBad
  cases s.SV <;> by_cases hi : 26 ≤ idx <;> simp [hi]

/-- The masks with which ENC and DEC fail (rules R142, R143). -/
theorem cipherMask_mem (h : s.BLEN ≠ 8 ∨ s.SV = false) :
    BitVec.ofNat 32 (cipherMask s) ∈ [1#32, 2#32, 3#32] := by
  unfold cipherMask blockLengthBit noTableBit
  rcases h with h8 | hv
  · cases s.SV <;> simp [h8]
  · by_cases h8 : s.BLEN = 8 <;> simp [h8, hv]

/-- The masks with which SRD fails (rule R111). -/
theorem tableReadMask_mem {idx : Nat} (h : s.SV = false ∨ 26 ≤ idx) :
    BitVec.ofNat 32 (tableReadMask s idx) ∈ [2#32, 4#32, 6#32] := by
  unfold tableReadMask noTableBit indexBit tableIndexBad
  rcases h with hv | hi
  · by_cases hi : 26 ≤ idx <;> simp [hi, hv]
  · cases s.SV <;> simp [hi]

/-- Settles O48, by the command's effect: an effect that is no error answers OK. -/
theorem errorKindsByCommand : Obligations.ErrorKindsByCommand := by
  intro i s t r hexec hrsp
  cases exec_effect i s t hexec <;> obtain rfl := Option.some.inj hrsp <;>
    rw [responseCode_response, responseData_response]
  case overflow hk => exact .inr (.inr (.inr ⟨rfl, rfl, hk, rfl⟩))
  case invalidKey hk h4 =>
    have hinfo : (BitVec.ofNat 32 s.KLEN).toNat = s.KLEN :=
      (BitVec.toNat_ofNat _ _).trans (Nat.mod_eq_of_lt (by omega))
    exact .inr (.inl ⟨rfl, rfl, h4, hinfo⟩)
  case cipherError h hi =>
    refine .inr (.inr (.inl ⟨rfl, .inl ⟨hi, cipherMask_mem s h⟩, ?_⟩))
    obtain ⟨h0, h1, h2⟩ := cipherMask_bits s
    rw [h0, h1, h2]
    simp
  case rotateError h hi => exact .inr (.inr (.inl ⟨rfl, .inr (.inl ⟨hi, rfl⟩), fun _ => h, nofun, nofun⟩))
  case srdError idx h =>
    refine .inr (.inr (.inl ⟨rfl, .inr (.inr (.inl ⟨⟨idx, rfl⟩, tableReadMask_mem s h⟩)), ?_⟩))
    obtain ⟨h0, h1, h2⟩ := tableReadMask_bits s idx
    rw [h0, h1, h2]
    simp
  case brdError idx h =>
    have hrange : min s.BLEN 8 ≤ idx := by omega
    exact .inr (.inr (.inl ⟨rfl, .inr (.inr (.inr ⟨⟨idx, rfl⟩, rfl⟩)), nofun, nofun, fun _ => .inr ⟨idx, rfl, hrange⟩⟩))
  all_goals exact .inl rfl

end Sys2Proof.Machine
end

section
/-! The assembler's lines (rules R61, R69): one equation per kind of mnemonic and operand. -/

namespace Sys2Proof.Machine

variable {m : Mnemonic}

theorem assemble_z_none (h : m.format = .z) : assemble m none = .ok (encode (m.instr 0)) := by
  simp only [assemble, h]

theorem assemble_z_some (h : m.format = .z) (n : Nat) : assemble m (some n) = .error .operandOnZ := by
  simp only [assemble, h]

theorem assemble_none (h : m.format ≠ .z) : assemble m none = .error .missingOperand := by
  unfold assemble
  cases hf : m.format with
  | z => exact absurd hf h
  | b | x => rfl

theorem assemble_some (h : m.format ≠ .z) (n : Nat) :
    assemble m (some n) = if n ≤ 255 then .ok (encode (m.instr n)) else .error .operandAbove255 := by
  unfold assemble
  cases hf : m.format with
  | z => exact absurd hf h
  | b | x => rfl

/-- The lines that assemble, and the word each one gives (rule R69). -/
theorem assemble_eq_ok_iff (operand : Option Nat) (w : Command) :
    assemble m operand = .ok w ↔
      (operand.isSome = true ↔ m.format ≠ .z) ∧ operand.getD 0 ≤ 255 ∧ encode (m.instr (operand.getD 0)) = w := by
  by_cases hz : m.format = .z <;> cases operand with
  | none => simp [hz, assemble_z_none, assemble_none]
  | some n => by_cases hn : n ≤ 255 <;> simp [hz, hn, assemble_z_some, assemble_some]

/-- Settles O18: each kind of line by its equation, and the word of a line by the decoder's round trip. -/
theorem assembledLinesDecode : Obligations.AssembledLinesDecode := by
  refine ⟨fun m operand w h => ?_, fun m operand h => ?_, fun m n hz => assemble_z_some hz n,
    fun m hz => assemble_none hz, fun m n hz hn => ?_⟩
  · obtain ⟨hoperand, hle, rfl⟩ := (assemble_eq_ok_iff operand w).1 h
    exact ⟨decode_encode _ (wellFormed_instr m hle), hoperand⟩
  · rcases h with ⟨hz, rfl⟩ | ⟨hz, n, hn, rfl⟩
    · exact ⟨_, assemble_z_none hz⟩
    · exact ⟨_, (assemble_some hz n).trans (if_pos hn)⟩
  · exact (assemble_some hz n).trans (if_neg (Nat.not_le_of_lt hn))

end Sys2Proof.Machine
end

section
/-! Hexadecimal text (rule R71): what it reads as, and that malformed text is refused with nothing emitted. -/

namespace Sys2Proof.Machine

/-- A written digit reads as its value (rule R71). -/
theorem hexDigit_digitChar {n : Nat} (h : n < 16) : hexDigit (digitChar n) = some n := by
  interval_cases n <;> decide

/-- The only error of hexadecimal text (rule R175). -/
theorem hexToBytes_ok_or_invalid (text : List Char) :
    (∃ bytes, hexToBytes text = .ok bytes) ∨ hexToBytes text = .error .invalidHexInput := by
  fun_cases hexToBytes text <;> simp

/-- Text that reads has two characters per byte, all of them digits (rule R71). -/
theorem digits_of_hexToBytes {text : List Char} {bytes : List Byte} (h : hexToBytes text = .ok bytes) :
    text.length = 2 * bytes.length ∧ ∀ ch ∈ text, hexDigit ch ≠ none := by
  fun_induction hexToBytes text generalizing bytes with
  | case1 => -- the empty text
    cases h
    simp
  | case3 hi lo rest h l bytes' hrest hlo hhi ih => -- two digits
    cases h
    obtain ⟨hlen, hdigits⟩ := ih hrest
    refine ⟨?_, ?_⟩
    · simp only [List.length_cons, hlen]
      omega
    · simpa [hhi, hlo] using hdigits
  | case2 | case4 => cases h -- no byte

/-- Malformed text is the error InvalidHexInput (rules R71, R175). -/
theorem hexToBytes_invalid {text : List Char} (h : text.length % 2 = 1 ∨ ∃ ch ∈ text, hexDigit ch = none) :
    hexToBytes text = .error .invalidHexInput := by
  refine (hexToBytes_ok_or_invalid text).resolve_left fun ⟨bytes, hok⟩ => ?_
  obtain ⟨hlen, hdigits⟩ := digits_of_hexToBytes hok
  rcases h with hodd | ⟨ch, hch, hnone⟩
  · omega
  · exact hdigits ch hch hnone

/-- The text of bytes reads back (rule R71). -/
theorem hexToBytes_bytesToHex (bytes : List Byte) : hexToBytes (bytesToHex bytes) = .ok bytes := by
  induction bytes with
  | nil => rfl
  | cons b rest ih =>
    have hhi : b.toNat / 16 < 16 := by have := b.isLt; omega
    have hlo : b.toNat % 16 < 16 := by omega
    have hb : b.toNat / 16 * 16 + b.toNat % 16 = b.toNat := by omega
    simp only [bytesToHex, hexToBytes, hexDigit_digitChar hhi, hexDigit_digitChar hlo, ih, hb, BitVec.ofNat_toNat,
      BitVec.setWidth_eq]

/-- A pseudo-instruction with a malformed operand is refused, whatever its other operand (rule R71). -/
theorem bothOperands_invalid {f : List Byte → List Byte → List Instr} {text other : List Char}
    (h : hexToBytes text = .error .invalidHexInput) :
    bothOperands f text other = .error .invalidHexInput ∧ bothOperands f other text = .error .invalidHexInput := by
  unfold bothOperands
  rw [h]
  cases hexToBytes other <;> exact ⟨rfl, rfl⟩

/-- Settles O20: text that reads is of even length and has digits alone, and a pseudo-instruction reads all its
operands before it emits anything. -/
theorem hexTextRoundTrip : Obligations.HexTextRoundTrip := by
  refine ⟨hexToBytes_bytesToHex, fun text h => hexToBytes_invalid (.inl h),
    fun text h => hexToBytes_invalid (.inr h), fun text other h => ?_⟩
  simp [expandPseudo, h, bothOperands_invalid h, Except.map]

end Sys2Proof.Machine
end

section
/-! Lines of text (rule R69): a line is cut into its words, the first names the mnemonic and the second is the number
that its digits write. -/

namespace Sys2Proof.Machine

/-- The characters that stand between the words of a line (rule R70; assumption 11). -/
def isBlank (ch : Char) : Bool :=
  ch == ' ' || ch == '\t' || ch == ','

/-- A word of a line: characters that are neither blanks nor the comment's `;` (rule R69). -/
abbrev IsWord (word : List Char) : Prop :=
  word ≠ [] ∧ ∀ ch ∈ word, isBlank ch = false ∧ ch ≠ ';'

/-- A blank before the words is skipped. -/
theorem lineWords_blank {ch : Char} (h : isBlank ch = true) (rest : List Char) :
    lineWords (ch :: rest) = lineWords rest := by
  unfold isBlank at h
  rw [lineWords.eq_def]
  simp only [h]

/-- A line that ends in a word's only character. -/
theorem lineWords_singleton {ch : Char} (h : isBlank ch = false) : lineWords [ch] = [[ch]] := by
  unfold isBlank at h
  rw [lineWords.eq_def]
  simp only [h, lineWords]

/-- A word ends before a blank. -/
theorem lineWords_before_blank {ch next : Char} (h : isBlank ch = false) (h' : isBlank next = true) (rest : List Char) :
    lineWords (ch :: next :: rest) = [ch] :: lineWords rest := by
  have hrest := lineWords_blank h' rest
  unfold isBlank at h h'
  rw [lineWords.eq_def]
  simp only [h, hrest]
  cases lineWords rest <;> simp only [h', if_true]

/-- A word goes on with a character that is no blank. -/
theorem lineWords_within_word {ch next : Char} {rest word : List Char} {words : List (List Char)}
    (h : isBlank ch = false) (h' : isBlank next = false) (hw : lineWords (next :: rest) = word :: words) :
    lineWords (ch :: next :: rest) = (ch :: word) :: words := by
  unfold isBlank at h h'
  rw [lineWords.eq_def]
  simp only [h, hw, h', Bool.false_eq_true, if_false]

/-- The words of a line that starts with a word, up to the line's end or to a blank. -/
theorem lineWords_append {word : List Char} (h : IsWord word) :
    lineWords word = [word] ∧ ∀ rest, lineWords (word ++ ' ' :: rest) = word :: lineWords rest := by
  obtain ⟨hne, hword⟩ := h
  induction word with
  | nil => exact absurd rfl hne
  | cons ch word ih =>
    obtain ⟨⟨hch, -⟩, hword'⟩ := List.forall_mem_cons.1 hword
    cases word with
    | nil => exact ⟨lineWords_singleton hch, fun rest => lineWords_before_blank hch rfl rest⟩
    | cons next word =>
      obtain ⟨⟨hnext, -⟩, -⟩ := List.forall_mem_cons.1 hword'
      obtain ⟨hend, hblank⟩ := ih (List.cons_ne_nil _ _) hword'
      exact ⟨lineWords_within_word hch hnext hend, fun rest => lineWords_within_word hch hnext (hblank rest)⟩

/-- A line without `;` has no comment (rule R69). -/
theorem dropComment_eq_self {line : List Char} (h : ';' ∉ line) : dropComment line = line := by
  refine List.takeWhile_eq_self_iff.2 fun ch hch => bne_iff_ne.2 ?_
  rintro rfl
  exact h hch

/-- A comment ends with its line (rule R69). -/
theorem dropComment_append_comment (line comment : List Char) :
    dropComment (line ++ ';' :: comment) = dropComment line := by
  unfold dropComment
  induction line with
  | nil => rfl
  | cons ch line ih => simp only [List.cons_append, List.takeWhile_cons, ih]

/-- Letters and digits make a word. -/
theorem isWord_of_isAlphanum {word : List Char} (hne : word ≠ []) (h : ∀ ch ∈ word, ch.isAlphanum = true) :
    IsWord word := by
  refine ⟨hne, fun ch hch => ?_⟩
  have hother {c : Char} (hc : c.isAlphanum = false) : ch ≠ c := by
    rintro rfl
    simp [h _ hch] at hc
  have hblank : isBlank ch = false := by
    simp [isBlank, hother (c := ' ') (by decide), hother (c := '\t') (by decide), hother (c := ',') (by decide)]
  exact ⟨hblank, hother (by decide)⟩

theorem IsWord.no_comment {word : List Char} (h : IsWord word) : ';' ∉ word :=
  fun hmem => (h.2 _ hmem).2 rfl

/-- A line that is a mnemonic's name alone (rule R69). -/
theorem assembleLine_name {name : List Char} {m : Mnemonic} (h : IsWord name)
    (hm : mnemonicNames.lookup name = some m) : assembleLine name = (assemble m none).map fun w => [w] := by
  rw [assembleLine, dropComment_eq_self h.no_comment, (lineWords_append h).1]
  simp only [hm]

/-- A line that is a mnemonic's name and a number (rule R69). -/
theorem assembleLine_name_number {name number : List Char} {m : Mnemonic} {n : Nat} (h : IsWord name)
    (hm : mnemonicNames.lookup name = some m) (h' : IsWord number) (hn : readNumber number = some n) :
    assembleLine (name ++ ' ' :: number) = (assemble m (some n)).map fun w => [w] := by
  have hcomment : ';' ∉ name ++ ' ' :: number := by simp [h.no_comment, h'.no_comment]
  rw [assembleLine, dropComment_eq_self hcomment, (lineWords_append h).2, (lineWords_append h').1]
  simp only [hm, hn]

/-- Each name in the assembler's list is found with its mnemonic (rules R63, R69). -/
theorem lookup_mnemonicNames : ∀ entry ∈ mnemonicNames, mnemonicNames.lookup entry.1 = some entry.2 := by
  decide

/-- The names in the assembler's list are in upper case (rule R69). -/
theorem upper_case_mnemonicNames : ∀ entry ∈ mnemonicNames, entry.1 ≠ [] ∧ ∀ ch ∈ entry.1, ch.isUpper = true := by
  simp [mnemonicNames]

/-- The value of one digit of a base (rule R69). -/
theorem digitsValue_singleton {base d : Nat} {ch : Char} (h : hexDigit ch = some d) (hd : d < base) :
    digitsValue base [ch] = some d := by
  simp [digitsValue, h, hd]

/-- One more digit at the end of a number (rule R69). -/
theorem digitsValue_concat {base n d : Nat} {digits : List Char} {ch : Char} (hn : digitsValue base digits = some n)
    (h : hexDigit ch = some d) (hd : d < base) : digitsValue base (digits ++ [ch]) = some (n * base + d) := by
  unfold digitsValue at hn ⊢
  split at hn
  · cases hn
  · simp [List.foldl_append, hn, h, hd]

/-- A decimal digit reads as its value (rule R69). -/
theorem hexDigit_natDigitChar {d : Nat} (h : d < 10) : hexDigit d.digitChar = some d := by
  interval_cases d <;> decide

/-- The decimal digits of a number have its value (rule R69). -/
theorem digitsValue_toDigits (n : Nat) : digitsValue 10 (Nat.toDigits 10 n) = some n := by
  induction n using Nat.strongRecOn with
  | ind n ih =>
    by_cases hn : n < 10
    · rw [Nat.toDigits_of_lt_base hn]
      exact digitsValue_singleton (hexDigit_natDigitChar hn) hn
    · have hlt : n % 10 < 10 := by omega
      have hsum : n / 10 * 10 + n % 10 = n := by omega
      rw [Nat.toDigits_of_base_le (by decide) (by omega),
        digitsValue_concat (ih (n / 10) (by omega)) (hexDigit_natDigitChar hlt) hlt, hsum]

/-- A word of digits alone is a decimal number (rule R69). -/
theorem readNumber_of_isDigit {word : List Char} (h : ∀ ch ∈ word, ch.isDigit = true) :
    readNumber word = digitsValue 10 word := by
  unfold readNumber
  split
  · exact absurd (h 'x' (by simp)) (by decide)
  · rfl

/-- A number in decimal is a word that reads as its value (rule R69). -/
theorem readNumber_decimal (n : Nat) : IsWord (toString n).toList ∧ readNumber (toString n).toList = some n := by
  have hdigits : ∀ ch ∈ Nat.toDigits 10 n, ch.isDigit = true :=
    fun ch hch => Nat.isDigit_of_mem_toDigits (by decide) (by decide) hch
  rw [Nat.toString_eq_repr, Nat.toList_repr]
  exact ⟨isWord_of_isAlphanum Nat.toDigits_ne_nil fun ch hch => by simp [Char.isAlphanum, hdigits ch hch],
    (readNumber_of_isDigit hdigits).trans (digitsValue_toDigits n)⟩

/-- A written hexadecimal digit is a letter or a digit (rule R71). -/
theorem isAlphanum_digitChar {d : Nat} (h : d < 16) : (digitChar d).isAlphanum = true := by
  interval_cases d <;> decide

/-- A byte in hexadecimal with `0x` is a word that reads as its value (rules R69, R71). -/
theorem readNumber_hexadecimal (b : Byte) :
    IsWord ('0' :: 'x' :: bytesToHex [b]) ∧ readNumber ('0' :: 'x' :: bytesToHex [b]) = some b.toNat := by
  have hhi : b.toNat / 16 < 16 := by have := b.isLt; omega
  have hlo : b.toNat % 16 < 16 := by omega
  have hsum : b.toNat / 16 * 16 + b.toNat % 16 = b.toNat := by omega
  have hword : IsWord ('0' :: 'x' :: bytesToHex [b]) := by
    refine isWord_of_isAlphanum (by simp) ?_
    simp only [bytesToHex, List.forall_mem_cons]
    exact ⟨by decide, by decide, isAlphanum_digitChar hhi, isAlphanum_digitChar hlo, nofun⟩
  refine ⟨hword, ?_⟩
  calc readNumber ('0' :: 'x' :: bytesToHex [b])
    _ = digitsValue 16 ([digitChar (b.toNat / 16)] ++ [digitChar (b.toNat % 16)]) := rfl
    _ = some (b.toNat / 16 * 16 + b.toNat % 16) :=
      digitsValue_concat (digitsValue_singleton (hexDigit_digitChar hhi) hhi) (hexDigit_digitChar hlo) hlo
    _ = some b.toNat := by rw [hsum]

/-- The names of the pseudo-instructions are in upper case (rule R70). -/
theorem upper_case_of_readPseudo {words : List (List Char)} {p : Pseudo} (h : readPseudo words = some p) :
    ∃ name operands, words = name :: operands ∧ ∀ ch ∈ name, ch.isUpper = true := by
  unfold readPseudo at h
  split at h
  case h_9 => cases h
  all_goals exact ⟨_, _, rfl, by simp⟩

/-- Lower case is not upper case. -/
theorem not_isUpper_of_isLower {ch : Char} (h : ch.isLower = true) : ¬ ch.isUpper = true := by
  simp only [Char.isLower, Char.isUpper, Bool.and_eq_true, decide_eq_true_eq, ge_iff_le, UInt32.le_iff_toNat_le] at h ⊢
  have ha : 'Z'.val.toNat < 'a'.val.toNat := by decide
  omega

/-- A word of lower-case letters is no mnemonic and no pseudo-instruction (rules R69, R70; assumption 11). -/
theorem assembleLine_lower_case {name : List Char} (hne : name ≠ []) (h : ∀ ch ∈ name, ch.isLower = true) :
    assembleLine name = .error .unreadableLine := by
  have hword : IsWord name :=
    isWord_of_isAlphanum hne fun ch hch => by simp [Char.isAlphanum, Char.isAlpha, h ch hch]
  obtain ⟨ch, hch⟩ := List.exists_mem_of_ne_nil name hne
  have hlookup : mnemonicNames.lookup name = none := by
    refine List.lookup_eq_none_iff.2 fun entry hentry => bne_iff_ne.2 ?_
    rintro rfl
    exact not_isUpper_of_isLower (h ch hch) ((upper_case_mnemonicNames entry hentry).2 ch hch)
  have hpseudo : readPseudo [name] = none := by
    refine Option.eq_none_iff_forall_ne_some.2 fun p hp => ?_
    obtain ⟨name', operands, heq, hupper⟩ := upper_case_of_readPseudo hp
    obtain ⟨rfl, -⟩ := List.cons.inj heq
    exact not_isUpper_of_isLower (h ch hch) (hupper ch hch)
  rw [assembleLine, dropComment_eq_self hword.no_comment, (lineWords_append hword).1]
  simp only [hlookup, hpseudo]

/-- Settles O19: a line's words are its name and its number, each number's digits have its value, and a word in lower
case is none of the upper-case names. -/
theorem textLinesAssemble : Obligations.TextLinesAssemble := by
  refine ⟨fun m => ?_, fun entry hentry => ?_, fun line comment => ?_,
    fun name hne h => assembleLine_lower_case hne fun ch hch => ?_⟩
  · cases m <;> simp [mnemonicNames]
  · obtain ⟨hne, hupper⟩ := upper_case_mnemonicNames entry hentry
    have hword : IsWord entry.1 :=
      isWord_of_isAlphanum hne fun ch hch => by simp [Char.isAlphanum, Char.isAlpha, hupper ch hch]
    have hlookup := lookup_mnemonicNames entry hentry
    refine ⟨assembleLine_name hword hlookup, fun n _ => ?_, fun b => ?_⟩
    · exact (readNumber_decimal n).elim (assembleLine_name_number hword hlookup)
    · exact (readNumber_hexadecimal b).elim (assembleLine_name_number hword hlookup)
  · rw [assembleLine, dropComment_append_comment, assembleLine]
  · simp only [Char.isLower, Bool.and_eq_true, decide_eq_true_eq]
    exact h ch hch

end Sys2Proof.Machine
end

section
/-! The arithmetic of words and the rotates (rules R80 to R86). Every law of the rotates follows from three facts:
bit i of `rotr` is bit (i + n) mod 32, `rotl` is `rotr` by the opposite amount, and amounts add modulo 32. -/

namespace Sys2Proof.Machine

/-! ### Addition, subtraction and exclusive-or -/

/-- Rule R80's formula. -/
theorem toNat_add32 (x y : Word) : (add32 x y).toNat = (x.toNat + y.toNat) % 2 ^ 32 :=
  BitVec.toNat_add x y

/-- Rule R81's formula, by the floored modulus. -/
theorem toNat_sub32 (x y : Word) : ((sub32 x y).toNat : Int) = ((x.toNat : Int) - (y.toNat : Int)) % 2 ^ 32 := by
  have hx := x.isLt
  have hy := y.isLt
  rw [sub32, BitVec.toNat_sub]
  omega

theorem sub32_add32 (x y : Word) : sub32 (add32 x y) y = x :=
  BitVec.add_sub_cancel x y

theorem add32_sub32 (x y : Word) : add32 (sub32 x y) y = x :=
  BitVec.sub_add_cancel x y

theorem getLsbD_xor32 (x y : Word) (i : Nat) : (xor32 x y).getLsbD i = (x.getLsbD i ^^ y.getLsbD i) :=
  BitVec.getLsbD_xor

theorem xor32_comm (x y : Word) : xor32 x y = xor32 y x :=
  BitVec.xor_comm x y

theorem xor32_xor32 (x y : Word) : xor32 (xor32 x y) y = x := by
  rw [xor32, xor32, BitVec.xor_assoc, BitVec.xor_self, BitVec.xor_zero]

/-- The exclusive-or of two bits is their sum modulo 2 (rule R82). -/
theorem toNat_xor (a b : Bool) : (a ^^ b).toNat = (a.toNat + b.toNat) % 2 := by
  cases a <;> cases b <;> rfl

/-- Settles O1: each operation is core Lean's on bit vectors, and the corner cases evaluate. -/
theorem addSubXorModulo32Bits : Obligations.AddSubXorModulo32Bits := by
  refine ⟨fun x y z => ⟨toNat_add32 x y, ?_, ?_, BitVec.add_zero x, toNat_sub32 x y, sub32_add32 x y, add32_sub32 x y,
    BitVec.sub_self x, fun i _ => ?_, xor32_xor32 x y, xor32_comm x y⟩, by decide, by decide, by decide, by decide⟩
  · rw [toNat_add32, toNat_add32, Nat.mod_add_mod]
  · rw [toNat_add32, toNat_add32, Nat.add_mod_mod, Nat.add_assoc]
  · rw [getLsbD_xor32, toNat_xor]

/-! ### The rotate amount -/

/-- Amounts add modulo 32 (rules R83, R86 (e)). -/
theorem rotamt_add (s t : Int) : rotamt (s + t) = (rotamt s + rotamt t) % 32 := by
  unfold rotamt
  omega

/-- The opposite amount (rule R86 (d)). -/
theorem rotamt_neg (s : Int) : rotamt (-s) = (32 - rotamt s) % 32 := by
  unfold rotamt
  omega

/-- The rotate amount of a word is its low five bits (rule R83). -/
theorem rotamt_toNat (v : Word) : rotamt (v.toNat : Int) = low5 v := by
  rw [rotamt_natCast, low5_eq]

/-- The low five bits of a sum (rule R83): 32 divides 2^32. -/
theorem low5_add32 (a b : Word) : low5 (add32 a b) = (a.toNat + b.toNat) % 32 := by
  rw [low5_eq, toNat_add32, Nat.mod_mod_of_dvd _ (by decide)]

/-- The rotate amount of a two's-complement pattern is its low five bits (rule R83): the sign changes the value by a
multiple of 2^n, which 32 divides. -/
theorem rotamt_toInt {n : Nat} (h : 5 ≤ n) (p : BitVec n) : rotamt p.toInt = (p.extractLsb' 0 5).toNat := by
  have hdvd : (32 : Int) ∣ ((2 ^ n : Nat) : Int) := Int.natCast_dvd_natCast.2 (Nat.pow_dvd_pow 2 h)
  have hmod : p.toInt % 32 = (p.toNat : Int) % 32 := by
    rw [BitVec.toInt_eq_toNat_bmod, ← Int.emod_emod_of_dvd _ hdvd, Int.bmod_emod, Int.emod_emod_of_dvd _ hdvd]
  rw [rotamt, hmod, BitVec.extractLsb'_toNat]
  omega

/-- Settles O2: the remainder modulo 32 of each kind of amount, and the rule's examples evaluate. -/
theorem rotateAmountIsModulo32 : Obligations.RotateAmountIsModulo32 := by
  refine ⟨fun s => ⟨rotamt_cast s, rotamt_lt s⟩, fun v => ⟨rotamt_toNat v, low5_eq v⟩,
    fun a b => ⟨low5_add32 a b, ?_⟩, fun n hn p => rotamt_toInt hn p,
    by decide, by decide, by decide, by decide, by decide, by decide, by decide⟩
  rw [low5_add32, low5_eq, low5_eq, ← Nat.add_mod]

/-! ### The rotates, bit by bit -/

/-- Only the normalized amount matters to `rotl` (rule R86 (c)). -/
theorem rotl_congr (x : Word) {s t : Int} (h : rotamt s = rotamt t) : rotl x s = rotl x t := by
  rw [rotl_eq, rotl_eq, h]

/-- Only the normalized amount matters to `rotr` (rule R86 (c)). -/
theorem rotr_congr (x : Word) {s t : Int} (h : rotamt s = rotamt t) : rotr x s = rotr x t := by
  rw [rotr_eq, rotr_eq, h]

/-- Bit i of `rotr` (rule R85). -/
theorem getLsbD_rotr (x : Word) (s : Int) {i : Nat} (hi : i < 32) :
    (rotr x s).getLsbD i = x.getLsbD ((i + rotamt s) % 32) := by
  have hn := rotamt_lt s
  rw [rotr_eq, BitVec.getLsbD_rotateRight_of_lt hn]
  by_cases hlow : i < 32 - rotamt s
  · rw [decide_eq_true hlow, cond_true, Nat.add_comm, Nat.mod_eq_of_lt (by omega)]
  · rw [decide_eq_false hlow, cond_false, decide_eq_true hi, Bool.true_and,
      show i - (32 - rotamt s) = (i + rotamt s) % 32 by omega]

/-- Bit i of `rotl`: the bit n places below, around the word (rule R84). -/
theorem getLsbD_rotl (x : Word) (s : Int) {i : Nat} (hi : i < 32) :
    (rotl x s).getLsbD i = x.getLsbD ((i + (32 - rotamt s)) % 32) := by
  have hn := rotamt_lt s
  rw [rotl_eq, BitVec.getLsbD_rotateLeft_of_le hn]
  by_cases hlow : i < rotamt s
  · rw [decide_eq_true hlow, cond_true, Nat.add_comm, Nat.mod_eq_of_lt (by omega)]
  · rw [decide_eq_false hlow, cond_false, decide_eq_true hi, Bool.true_and,
      show i - rotamt s = (i + (32 - rotamt s)) % 32 by omega]

/-- `rotl` is `rotr` by the opposite amount (rule R86 (d)). -/
theorem rotl_eq_rotr_neg (x : Word) (s : Int) : rotl x s = rotr x (-s) := by
  refine BitVec.eq_of_getLsbD_eq fun i hi => ?_
  rw [getLsbD_rotl x s hi, getLsbD_rotr x _ hi, rotamt_neg, Nat.add_mod_mod]

/-- `rotr` by two amounts in turn is `rotr` by their sum. -/
theorem rotr_rotr (x : Word) (s t : Int) : rotr (rotr x s) t = rotr x (s + t) := by
  refine BitVec.eq_of_getLsbD_eq fun i hi => ?_
  rw [getLsbD_rotr _ _ hi, getLsbD_rotr _ _ (Nat.mod_lt _ (by decide)), getLsbD_rotr _ _ hi, rotamt_add,
    Nat.mod_add_mod, Nat.add_mod_mod, Nat.add_assoc, Nat.add_comm (rotamt t)]

/-! ### The formulas and the corner cases -/

theorem rotl_of_rotamt_eq_zero (x : Word) {s : Int} (h : rotamt s = 0) : rotl x s = x :=
  if_pos h

theorem rotr_of_rotamt_eq_zero (x : Word) {s : Int} (h : rotamt s = 0) : rotr x s = x :=
  if_pos h

/-- Rule R84's formula: the bits moved down fit the word, so the modulus acts on those moved up alone. -/
theorem toNat_rotl (x : Word) (s : Int) :
    (rotl x s).toNat = ((x.toNat * 2 ^ rotamt s) ||| (x.toNat / 2 ^ (32 - rotamt s))) % 2 ^ 32 := by
  rw [rotl_eq, BitVec.toNat_rotateLeft, Nat.mod_eq_of_lt (rotamt_lt s), Nat.shiftLeft_eq, Nat.shiftRight_eq_div_pow,
    Nat.or_mod_two_pow, Nat.mod_eq_of_lt ((Nat.div_le_self _ _).trans_lt x.isLt)]

/-- Rule R85's formula: the bits moved down fit the word, so the modulus acts on those moved up alone. -/
theorem toNat_rotr (x : Word) (s : Int) :
    (rotr x s).toNat = ((x.toNat / 2 ^ rotamt s) ||| (x.toNat * 2 ^ (32 - rotamt s))) % 2 ^ 32 := by
  rw [rotr_eq, BitVec.toNat_rotateRight, Nat.mod_eq_of_lt (rotamt_lt s), Nat.shiftLeft_eq, Nat.shiftRight_eq_div_pow,
    Nat.or_mod_two_pow, Nat.mod_eq_of_lt ((Nat.div_le_self _ _).trans_lt x.isLt)]

/-- A word whose bits are all alike is fixed by every `rotr`. -/
theorem rotr_of_bits_alike {x : Word} {b : Bool} (h : ∀ i, i < 32 → x.getLsbD i = b) (s : Int) : rotr x s = x := by
  refine BitVec.eq_of_getLsbD_eq fun i hi => ?_
  rw [getLsbD_rotr x s hi, h _ (Nat.mod_lt _ (by decide)), h i hi]

theorem rotr_zero_word (s : Int) : rotr 0#32 s = 0#32 :=
  rotr_of_bits_alike (fun _ _ => BitVec.getLsbD_zero) s

theorem rotr_ones_word (s : Int) : rotr 0xFFFFFFFF#32 s = 0xFFFFFFFF#32 :=
  rotr_of_bits_alike (b := true) (by decide) s

/-- Rotating by 16 swaps the half-words. -/
theorem rotr_sixteen (x : Word) : rotr x 16 = x.extractLsb' 0 16 ++ x.extractLsb' 16 16 := by
  have h16 : rotamt 16 = 16 := by decide
  refine BitVec.eq_of_getLsbD_eq fun i hi => ?_
  rw [getLsbD_rotr x 16 hi, h16, BitVec.getLsbD_append]
  by_cases hlow : i < 16
  · simp [hlow, Nat.mod_eq_of_lt (show i + 16 < 32 by omega), Nat.add_comm]
  · simp [hlow, show i - 16 < 16 by omega, show (i + 16) % 32 = i - 16 by omega]

theorem rotl_sixteen (x : Word) : rotl x 16 = x.extractLsb' 0 16 ++ x.extractLsb' 16 16 := by
  rw [rotl_eq_rotr_neg, rotr_congr x (show rotamt (-16) = rotamt 16 by decide), rotr_sixteen]

/-- Settles O3: the formula, the bits, and the corner cases, those of fixed words through `rotr`. -/
theorem rotlMovesEachBitUp : Obligations.RotlMovesEachBitUp := by
  intro x s
  have hn := rotamt_lt s
  refine ⟨rotl_of_rotamt_eq_zero x, fun _ => toNat_rotl x s, fun i hi => ?_, rotl_of_rotamt_eq_zero x (by decide),
    rotl_of_rotamt_eq_zero x (by decide), rotl_of_rotamt_eq_zero x (by decide),
    (rotl_eq_rotr_neg _ s).trans (rotr_zero_word _), (rotl_eq_rotr_neg _ s).trans (rotr_ones_word _), rotl_sixteen x,
    by decide, by decide, by decide⟩
  rw [getLsbD_rotl x s (Nat.mod_lt _ (by decide)),
    show ((i + rotamt s) % 32 + (32 - rotamt s)) % 32 = i by omega]

/-- Settles O4: the formula, the bits and the corner cases. -/
theorem rotrMovesEachBitDown : Obligations.RotrMovesEachBitDown := by
  intro x s
  exact ⟨rotr_of_rotamt_eq_zero x, fun _ => toNat_rotr x s, fun i hi => getLsbD_rotr x s hi,
    rotr_of_rotamt_eq_zero x (by decide), rotr_of_rotamt_eq_zero x (by decide), rotr_of_rotamt_eq_zero x (by decide),
    rotr_zero_word s, rotr_ones_word s, rotr_sixteen x, by decide, by decide, by decide⟩

/-! ### The laws -/

theorem rotamt_rotamt (s : Int) : rotamt (rotamt s : Int) = rotamt s := by
  rw [rotamt_natCast, Nat.mod_eq_of_lt (rotamt_lt s)]

theorem rotamt_add_thirtyTwo (s : Int) : rotamt (s + 32) = rotamt s := by
  unfold rotamt
  omega

/-- `rotr` undoes `rotl` (rule R86 (a)). -/
theorem rotr_rotl (x : Word) (s : Int) : rotr (rotl x s) s = x := by
  rw [rotl_eq_rotr_neg, rotr_rotr, Int.add_left_neg]
  exact rotr_of_rotamt_eq_zero x rfl

/-- `rotl` undoes `rotr` (rule R86 (b)). -/
theorem rotl_rotr (x : Word) (s : Int) : rotl (rotr x s) s = x := by
  rw [rotl_eq_rotr_neg, rotr_rotr, Int.add_right_neg]
  exact rotr_of_rotamt_eq_zero x rfl

/-- `rotl` by two amounts in turn is `rotl` by their sum (rule R86 (e)). -/
theorem rotl_rotl (x : Word) (s t : Int) : rotl (rotl x s) t = rotl x (s + t) := by
  rw [rotl_eq_rotr_neg x, rotl_eq_rotr_neg, rotl_eq_rotr_neg, rotr_rotr, Int.neg_add]

/-- `rotl` distributes over exclusive-or (rule R86 (g)): it moves each bit on its own. -/
theorem rotl_xor32 (x y : Word) (s : Int) : rotl (xor32 x y) s = xor32 (rotl x s) (rotl y s) := by
  refine BitVec.eq_of_getLsbD_eq fun i hi => ?_
  rw [getLsbD_rotl _ _ hi, getLsbD_xor32, getLsbD_xor32, getLsbD_rotl _ _ hi, getLsbD_rotl _ _ hi]

/-- `rotl` does not distribute over addition (rule R86 (g)): the carry out of bit 31 is lost before the rotate. -/
theorem rotl_add32_ne :
    rotl (add32 0x80000000#32 0x80000000#32) 1 ≠ add32 (rotl 0x80000000#32 1) (rotl 0x80000000#32 1) := by
  decide

/-- Settles O5: the two rotates undo each other, so each is a bijection. -/
theorem rotateLaws : Obligations.RotateLaws := by
  refine ⟨fun x y s t => ⟨rotr_rotl x s, rotl_rotr x s, rotl_congr x (rotamt_add_thirtyTwo s).symm,
    rotl_congr x (rotamt_rotamt s).symm, rotr_congr x (rotamt_add_thirtyTwo s).symm,
    rotr_congr x (rotamt_rotamt s).symm, rotl_eq_rotr_neg x s, ?_, rotl_rotl x s t, rotl_xor32 x y s⟩,
    fun s => ⟨?_, ?_⟩, _, _, _, rotl_add32_ne⟩
  · calc rotl x s = rotl x (rotamt s) := rotl_congr x (rotamt_rotamt s).symm
      _ = rotr x (-(rotamt s : Int)) := rotl_eq_rotr_neg x _
      _ = rotr x (-(rotamt s : Int) + 32) := rotr_congr x (rotamt_add_thirtyTwo _).symm
      _ = rotr x (32 - (rotamt s : Int)) := by rw [Int.add_comm, ← Int.sub_eq_add_neg]
  · exact Function.bijective_iff_has_inverse.2 ⟨(rotr · s), (rotr_rotl · s), (rotl_rotr · s)⟩
  · exact Function.bijective_iff_has_inverse.2 ⟨(rotl · s), (rotl_rotr · s), (rotr_rotl · s)⟩

end Sys2Proof.Machine
end

section
/-! The commands ROTL and ROTR (rules R87, R88). They differ in their rotate alone, so what they do to the block is
proved once, for a command that rotates by a function the other one undoes. -/

namespace Sys2Proof.Machine

/-- Bytes 0 to 3 after storing A are A's bytes (rule R43). -/
theorem bytes_storeA {m : Memory} (h : m.wf) (x : Word) :
    ((storeA m x).read 0, (storeA m x).read 1, (storeA m x).read 2, (storeA m x).read 3) = bytes4 x := by
  simp only [storeA, Memory.read_write32 m 0 _ x h]
  rfl

/-- Word A of a block is the word last stored there. -/
theorem read32_storeA {m : Memory} (h : m.wf) (x : Word) : (storeA m x).read32 0 = x := by
  have hbytes := bytes_storeA h x
  simp only [bytes4, Prod.mk.injEq] at hbytes
  obtain ⟨h0, h1, h2, h3⟩ := hbytes
  simp only [Memory.read32, h0, h1, h2, h3]
  exact be32_bytes4 x

/-- Storing A leaves word B alone. -/
theorem read32_four_storeA {m : Memory} (h : m.wf) (x : Word) : (storeA m x).read32 4 = m.read32 4 := by
  have hread (n : Nat) : (storeA m x).read (4 + n) = m.read (4 + n) := read_storeA_of_le h x (Nat.le_add_right 4 n)
  simp only [Memory.read32, hread, read_storeA_of_le h x (Nat.le_refl 4)]

/-- Storing the first word A again restores the block. -/
theorem storeA_storeA_read32 {m : Memory} (h : m.wf) (x : Word) : storeA (storeA m x) (m.read32 0) = m := by
  have hx := wf_storeA m x h
  refine Memory.ext_read _ _ (wf_storeA _ _ hx) h fun a => ?_
  by_cases ha : 4 ≤ a
  · rw [read_storeA_of_le hx _ ha, read_storeA_of_le h x ha]
  · have hbytes := (bytes_storeA hx (m.read32 0)).trans (bytes4_be32 _ _ _ _)
    simp only [Prod.mk.injEq] at hbytes
    obtain ⟨h0, h1, h2, h3⟩ := hbytes
    interval_cases a
    · exact h0
    · exact h1
    · exact h2
    · exact h3

/-- The signed reading of a word has its low five bits as rotate amount (rules R83, R87). -/
theorem rotamt_toInt_word (v : Word) : rotamt v.toInt = low5 v :=
  rotamt_toInt (by decide) v

theorem rotamt_low5 (v : Word) : rotamt (low5 v : Int) = low5 v := by
  rw [rotamt_natCast, Nat.mod_eq_of_lt (low5_lt v)]

/-- What R87 and R88 say of a command `op` on a block of 8 bytes, and what of its `rotate` they need. -/
structure RotatesBlock (op : Instr) (rotate : Word → Int → Word) : Prop where
  exec_eq : ∀ s : State, s.BLEN = 8 →
    exec op s = .next (answered (rotated s (rotate (blockA s) (low5 (blockB s))))
      (response okCode (rotate (blockA s) (low5 (blockB s)))))
  congr : ∀ (x : Word) {s t : Int}, rotamt s = rotamt t → rotate x s = rotate x t
  zero : ∀ (x : Word) {s : Int}, rotamt s = 0 → rotate x s = x

theorem rotatesBlock_rotl : RotatesBlock .rotl rotl :=
  ⟨fun _ h8 => (Effect.rotl h8).exec_eq, rotl_congr, rotl_of_rotamt_eq_zero⟩

theorem rotatesBlock_rotr : RotatesBlock .rotr rotr :=
  ⟨fun _ h8 => (Effect.rotr h8).exec_eq, rotr_congr, rotr_of_rotamt_eq_zero⟩

/-- The second command restores the block that the first one rotated: A is rotated back, B was not written. -/
theorem RotatesBlock.undo {undo : Instr} {back : Word → Int → Word} (hundo : RotatesBlock undo back) {s : State}
    (h8 : s.BLEN = 8) (hwf : s.BLK.wf) {r : Word} (hback : back r (low5 (blockB s)) = blockA s) (d : Response) :
    ∃ u, exec undo (answered (rotated s r) d) = .next u ∧ u.BLK = s.BLK ∧ u.BLEN = 8 := by
  refine ⟨_, hundo.exec_eq _ h8, ?_, h8⟩
  have hA : blockA (answered (rotated s r) d) = r := read32_storeA hwf r
  have hB : blockB (answered (rotated s r) d) = blockB s := read32_four_storeA hwf r
  rw [hA, hB, hback]
  exact storeA_storeA_read32 hwf r

/-- A command that rotates the block, and another that rotates it back, by the words of R87 and R88. -/
theorem RotatesBlock.run {op undo : Instr} {rotate back : Word → Int → Word} (h : RotatesBlock op rotate)
    (hundo : RotatesBlock undo back) (hback : ∀ x s, back (rotate x s) s = x) {s : State} (h8 : s.BLEN = 8)
    (hwf : s.BLK.wf) :
    ∃ t, exec op s = .next t ∧
      let x := be32 (s.BLK.read 0) (s.BLK.read 1) (s.BLK.read 2) (s.BLK.read 3)
      let v := be32 (s.BLK.read 4) (s.BLK.read 5) (s.BLK.read 6) (s.BLK.read 7)
      let r := rotate x v.toInt
      t.A = r ∧ t.B = v ∧ r = rotate x (low5 v) ∧
      (v = 0#32 ∨ v = 32#32 ∨ v = 0xFFFFFFE0#32 → r = x) ∧
      (∃ u, exec undo t = .next u ∧ u.BLK = s.BLK ∧ u.BLEN = 8) ∧
      (t.BLK.read 0, t.BLK.read 1, t.BLK.read 2, t.BLK.read 3) = bytes4 r ∧
      (∀ a, 4 ≤ a → t.BLK.read a = s.BLK.read a) ∧
      t.BLEN = 8 ∧ AnswersOK t r ∧
      SameKey s t ∧ SameTable s t ∧ t.i = s.i ∧ SameSchedule s t ∧ SameOutside s t := by
  refine ⟨_, h.exec_eq s h8, ?_⟩
  intro x v r
  have hr : r = rotate (blockA s) (low5 (blockB s)) :=
    h.congr x ((rotamt_toInt_word v).trans (rotamt_low5 v).symm)
  rw [← hr]
  refine ⟨rfl, rfl, hr, fun hv => h.zero x ?_, ?_, bytes_storeA hwf r, fun a ha => read_storeA_of_le hwf r ha, h8, rfl,
    ⟨rfl, fun _ => rfl⟩, ⟨rfl, rfl⟩, rfl, ⟨rfl, rfl, rfl, rfl⟩, rfl, rfl, rfl⟩
  · rw [rotamt_toInt_word]
    rcases hv with hv | hv | hv <;> rw [hv] <;> decide
  · exact hundo.undo h8 hwf (by rw [hr, hback]) _

/-- The refusal of R87 and R88. -/
theorem rotate_refused {op : Instr} (hop : op = .rotl ∨ op = .rotr) {s : State} (h : s.BLEN ≠ 8) :
    ∃ t, exec op s = .next t ∧ AnswersError t .invalidInput 1#32 ∧ SameEngine s t :=
  ⟨_, (Effect.rotateError op hop h).exec_eq, rfl, rfl⟩

/-- Settles O6: ROTL rotates the block by `rotl`, which `rotr` undoes. -/
theorem rotlCommandRotatesBlock : Obligations.RotlCommandRotatesBlock :=
  ⟨rfl, fun _ => ⟨rotatesBlock_rotl.run rotatesBlock_rotr rotr_rotl, rotate_refused (.inl rfl)⟩⟩

/-- Settles O7: ROTR rotates the block by `rotr`, which `rotl` undoes. -/
theorem rotrCommandRotatesBlock : Obligations.RotrCommandRotatesBlock :=
  ⟨rfl, fun _ => ⟨rotatesBlock_rotr.run rotatesBlock_rotl rotl_rotr, rotate_refused (.inr rfl)⟩⟩

end Sys2Proof.Machine
end

section
/-! The key partition and the seeds (rules R100, R102). -/

namespace Sys2Proof.Machine

/-- Word w of the key is its bytes 4w to 4w + 3, the first most significant (rules R41, R100). -/
theorem keyWords_getElem? : ∀ (key : List Byte) (w : Nat), w < key.length / 4 →
    (keyWords key)[w]? = some (be32 (key.getD (4 * w) 0#8) (key.getD (4 * w + 1) 0#8)
      (key.getD (4 * w + 2) 0#8) (key.getD (4 * w + 3) 0#8))
  | [], _, h | [_], _, h | [_, _], _, h | [_, _, _], _, h => absurd h (by simp)
  | b0 :: b1 :: b2 :: b3 :: rest, 0, _ => rfl
  | b0 :: b1 :: b2 :: b3 :: rest, w + 1, h => by
    have hw : w < rest.length / 4 := by
      simp only [List.length_cons] at h
      omega
    rw [keyWords_cons, List.getElem?_cons_succ, keyWords_getElem? rest w hw]
    rfl

/-- `derive` fails exactly on a key without a whole chunk (rules R105, R107). -/
theorem derive_eq_none_iff (key : List Byte) : derive key = none ↔ key.length / 4 = 0 := by
  rw [derive_eq, keyWords_length]
  split
  · next h => exact iff_of_true rfl h
  · next h => exact iff_of_false nofun h

/-- Settles O21: the words are taken chunk by chunk, and `derive` looks at their number alone to fail. -/
theorem keyPartitionDropsPartialChunk : Obligations.KeyPartitionDropsPartialChunk :=
  fun key => ⟨keyWords_length key, keyWords_getElem? key, derive_eq_none_iff key⟩

/-- The first byte of a word made from bytes is its most significant (rule R41). -/
theorem extractLsb'_be32 (b0 b1 b2 b3 : Byte) : (be32 b0 b1 b2 b3).extractLsb' 24 8 = b0 :=
  congrArg Prod.fst (bytes4_be32 b0 b1 b2 b3)

/-- Each seed is the one before plus the second constant (rule R102). -/
theorem seed_succ (i : Nat) : seed (i + 1) = add32 (seed i) 0x9E3779B9#32 := by
  rw [seed, seed, add32, Nat.succ_mul, ← Nat.add_assoc, BitVec.ofNat_add]

theorem seedTable_get (i : Fin 26) : seedTable.get i = seed i.val :=
  Vector.getElem_ofFn i.isLt

/-- Settles O22: the formula is the definition, and the rule's table is the definition evaluated. -/
theorem seedsFollowConstants : Obligations.SeedsFollowConstants :=
  ⟨fun i => ⟨BitVec.toNat_ofNat _ _, seed_succ i⟩, rfl, seedTable_get, by decide⟩

end Sys2Proof.Machine
end

section
/-! The mix loop (rules R103, R104, R106): what one iteration writes, which iteration writes which entry of S, and which
write of an entry is its last. -/

namespace Sys2Proof.Machine

/-! ### One iteration -/

section
variable (m : Mix)

/-- The first assignment reads the old S[i], A and B (rule R103). -/
theorem mixstep_A : (mixstep m).A = (m.S.get m.i + m.A + m.B).rotateLeft 3 :=
  rotl_eq _ 3

/-- The second assignment reads the old L[j] and B and the new A (rule R103). -/
theorem mixstep_B : (mixstep m).B =
    (m.L.getD m.j 0#32 + (mixstep m).A + m.B).rotateLeft (((mixstep m).A + m.B).toNat % 32) :=
  rotl_low5 _ _

theorem mixstep_i_val : (mixstep m).i.val = (m.i.val + 1) % 26 :=
  Fin.val_add m.i 1

theorem mixstep_j : (mixstep m).j = (m.j + 1) % m.L.length := rfl

/-- An iteration writes entry i of S with the A it produces, and no other entry. -/
theorem mixstep_S_get (n : Fin 26) :
    (mixstep m).S.get n = if n = m.i then (mixstep m).A else m.S.get n := by
  have hset : (mixstep m).S.get n = if m.i.val = n.val then (mixstep m).A else m.S.get n :=
    Vector.getElem_set m.i.isLt n.isLt
  simp only [hset, Fin.ext_iff, eq_comm]

/-- An iteration writes entry j of L with the B it produces, and no other entry. -/
theorem mixstep_L_getElem? (h : m.j < m.L.length) (n : Nat) :
    (mixstep m).L[n]? = if n = m.j then some (mixstep m).B else m.L[n]? := by
  have hset : (mixstep m).L[n]? = if m.j = n then some (mixstep m).B else m.L[n]? :=
    List.getElem?_set_of_lt' _ m.L h
  simp only [hset, eq_comm]

end

/-- Settles O23: each part of the new working set, by its lemma. -/
theorem mixstepReadsNewAAndOldB : Obligations.MixstepReadsNewAAndOldB := by
  intro m hj a b
  have hA : (mixstep m).A = a := mixstep_A m
  have hB : (mixstep m).B = b := by rw [mixstep_B, hA]
  refine ⟨hA, ?_, fun n hn => ?_, hB, ?_, fun n hn => ?_, mixstep_L_length m, mixstep_i_val m, mixstep_j m⟩
  · rw [mixstep_S_get, if_pos rfl, hA]
  · rw [mixstep_S_get, if_neg hn]
  · rw [mixstep_L_getElem? m hj, if_pos rfl, hB]
  · rw [mixstep_L_getElem? m hj, if_neg hn]

/-! ### The loop -/

section
variable (L : List Word)

/-- Before iteration k the index of S is k mod 26 (rule R104). -/
theorem mixTimes_i_val (k : Nat) : (mixTimes k (mixStart L)).i.val = k % 26 := by
  induction k with
  | zero => rfl
  | succ k ih => rw [mixTimes_succ, mixstep_i_val, ih, Nat.mod_add_mod]

/-- Before iteration k the index of L is k mod c (rule R104). -/
theorem mixTimes_j (k : Nat) : (mixTimes k (mixStart L)).j = k % L.length := by
  induction k with
  | zero => exact (Nat.zero_mod _).symm
  | succ k ih =>
    have hlen : (mixTimes k (mixStart L)).L.length = L.length := mixTimes_L_length k (mixStart L)
    rw [mixTimes_succ, mixstep_j, ih, hlen, Nat.mod_add_mod]

/-- Iteration k writes entry k mod 26 of S with the A it produces, and no other entry (rules R103, R104). -/
theorem mixTimes_succ_S_get (k : Nat) (n : Fin 26) :
    (mixTimes (k + 1) (mixStart L)).S.get n =
      if k % 26 = n.val then (mixTimes (k + 1) (mixStart L)).A else (mixTimes k (mixStart L)).S.get n := by
  rw [mixTimes_succ, mixstep_S_get, ← mixTimes_i_val L k]
  simp only [Fin.ext_iff, eq_comm]

/-- What iteration k writes to its entry of S stands there until 25 more iterations are done. -/
theorem mixTimes_S_get_kept {k : Nat} {n : Fin 26} (hk : k % 26 = n.val) {d : Nat} (hd : d < 26) :
    (mixTimes (k + 1 + d) (mixStart L)).S.get n = (mixTimes (k + 1) (mixStart L)).A := by
  induction d with
  | zero => rw [Nat.add_zero, mixTimes_succ_S_get, if_pos hk]
  | succ d ih =>
    have hother : ¬ (k + 1 + d) % 26 = n.val := by omega
    rw [← Nat.add_assoc, mixTimes_succ_S_get, if_neg hother, ih (by omega)]

/-- Entry n of the final table is what iteration 52 + n, the last to write it, produced (rule R106). -/
theorem schedule_S_get (n : Fin 26) : (schedule L).S.get n = (mixTimes (53 + n.val) (mixStart L)).A := by
  have hn := n.isLt
  have hlast : (52 + n.val) % 26 = n.val := by omega
  have hkept := mixTimes_S_get_kept L hlast (d := 25 - n.val) (by omega)
  rwa [show 52 + n.val + 1 + (25 - n.val) = 78 by omega, ← schedule_eq,
    show 52 + n.val + 1 = 53 + n.val by omega] at hkept

/-- The final A is the last entry of the table (rule R106). -/
theorem schedule_S_get_last : (schedule L).S.get 25 = (schedule L).A := by
  rw [schedule_S_get, schedule_eq]
  rfl

end

/-- Settles O24: the indices by induction on the iterations, the entries by the iterations that write them. -/
theorem mixLoopWritesEachEntryThreeTimes : Obligations.MixLoopWritesEachEntryThreeTimes := by
  intro L _
  refine ⟨fun k => ⟨mixTimes_i_val L k, mixTimes_j L k⟩, fun k n hk => ?_, fun k n hk => ?_, schedule_eq L,
    schedule_S_get L, schedule_S_get_last L⟩
  · rw [mixTimes_succ_S_get, if_pos hk]
  · rw [mixTimes_succ_S_get, if_neg hk]

end Sys2Proof.Machine
end

section
/-! The commands KCLR, KPUSH, EXPAND and SRD (rules R108 to R111). -/

namespace Sys2Proof.Machine

/-- The value of a command word: its opcode in bits 15:8, its `arg` in bits 7:0 (rule R60). -/
theorem toNat_opcode_append (op arg : Byte) : (op ++ arg).toNat = op.toNat * 256 + arg.toNat := by
  have harg := arg.isLt
  rw [BitVec.toNat_append, ← Nat.shiftLeft_add_eq_or_of_lt harg, Nat.shiftLeft_eq]

/-! ### KCLR -/

/-- STAT shows KLEN in the low half of its word (rule R160). -/
theorem extractLsb'_statusWord (s : State) (hk : s.KLEN < 65536) (hb : s.BLEN < 16) :
    (statusWord s).extractLsb' 0 16 = BitVec.ofNat 16 s.KLEN := by
  refine BitVec.eq_of_toNat_eq ?_
  rw [BitVec.extractLsb'_toNat, toNat_statusWord s hk hb, BitVec.toNat_ofNat]
  omega

/-- Settles O26: KCLR's effect is KLEN and the response alone. -/
theorem kclrEmptiesKey : Obligations.KclrEmptiesKey := by
  refine ⟨rfl, fun s => ⟨_, Effect.kclr.exec_eq, rfl, fun _ => rfl, rfl, ⟨rfl, rfl⟩, ⟨rfl, fun _ => rfl⟩,
    ⟨rfl, rfl, rfl, rfl, rfl, rfl, rfl⟩, ⟨rfl, rfl, rfl⟩, fun hb => ⟨_, _, Effect.stat.exec_eq, rfl, ?_⟩⟩⟩
  exact extractLsb'_statusWord _ (Nat.zero_lt_succ _) (Nat.lt_of_le_of_lt hb (by decide))

/-! ### KPUSH -/

/-- The most significant byte of the first key word is the first byte of the key (rules R41, R109). -/
theorem keyWords_keyBytes_first_byte (m : Memory) {n : Nat} (h : 4 ≤ n) :
    (keyWords (keyBytes m n))[0]?.map (fun v => v.extractLsb' 24 8) = some (m.read 0) := by
  have hword : 0 < (keyBytes m n).length / 4 := by
    rw [keyBytes_length]
    omega
  rw [keyWords_getElem? _ 0 hword, Option.map_some, extractLsb'_be32, List.getD_eq_getElem?_getD,
    keyBytes_getElem? m n _ (by omega)]
  rfl

/-- Settles O27: a push below the capacity writes its byte, and one at or above it leaves the count that EXPAND
refuses. -/
theorem kpushAppendsKeyByte : Obligations.KpushAppendsKeyByte := by
  refine ⟨fun imm8 => toNat_opcode_append 0x11#8 imm8, fun s imm8 hwf => ?_,
    fun s h4 => keyWords_keyBytes_first_byte s.KEY h4⟩
  have hread := read_keyPushed hwf imm8
  have hklen : (keyPushed s imm8).KLEN = klenPushed s.cfg.keyBytesMax s.KLEN := keyPushed_KLEN s imm8
  refine ⟨_, (Effect.kpush imm8).exec_eq, fun hroom => ?_, fun hfull => ?_, rfl, ⟨rfl, rfl⟩, ⟨rfl, fun _ => rfl⟩,
    ⟨rfl, rfl, rfl, rfl, rfl, rfl, rfl⟩, rfl, rfl, rfl⟩
  · refine ⟨?_, (hread s.KLEN).trans (if_pos ⟨hroom, rfl⟩),
      fun a ha => (hread a).trans (if_neg fun hat => ha hat.2)⟩
    exact hklen.trans (if_pos hroom)
  · have hover : (keyPushed s imm8).KLEN = s.cfg.keyBytesMax + 1 := hklen.trans (if_neg (Nat.not_lt.2 hfull))
    exact ⟨hover, fun a => (hread a).trans (if_neg fun hat => Nat.not_lt.2 hfull hat.1), _,
      (Effect.overflow hover).exec_eq, rfl⟩

/-! ### EXPAND -/

/-- A list of KLEN bytes that are those of KEY is the key. -/
theorem eq_keyBytes {key : List Byte} {m : Memory} {n : Nat} (hlen : key.length = n)
    (hread : ∀ k, k < n → key[k]? = some (m.read k)) : key = keyBytes m n := by
  refine List.ext_getElem? fun k => ?_
  by_cases hk : k < n
  · rw [hread k hk, keyBytes_getElem? m n k hk]
  · rw [List.getElem?_eq_none (by omega), List.getElem?_eq_none (by rw [keyBytes_length]; omega)]

/-- EXPAND keeps the length of L (rule R24; assumption 3). -/
theorem expanded_L_length {s : State} (hwf : s.WF) (hmax : s.KLEN ≤ s.cfg.keyBytesMax) :
    (expanded s).L.length = s.L.length := by
  have hc : s.KLEN / 4 ≤ s.cfg.keyWordsMax := Nat.div_le_div_right hmax
  rw [expanded_L, List.length_append, schedule_L_length, length_keyWords_keyBytes, List.length_drop, hwf.l_length]
  omega

/-- EXPAND writes the first c entries of L and keeps the others (rule R24; assumption 3). -/
theorem expanded_L_getElem? (s : State) {n : Nat} (h : s.KLEN / 4 ≤ n) : (expanded s).L[n]? = s.L[n]? := by
  have hlen := length_keyWords_keyBytes s.KEY s.KLEN
  rw [expanded_L, List.getElem?_append_right (by rwa [schedule_L_length, hlen]), List.getElem?_drop,
    schedule_L_length, hlen, Nat.add_sub_cancel' h]

/-- Settles O28: EXPAND schedules the words of the bytes in KEY, which it leaves there for the next EXPAND. -/
theorem expandDerivesTable : Obligations.ExpandDerivesTable := by
  refine ⟨rfl, fun s hwf h4 hmax => ?_⟩
  have hk : s.KLEN ≠ s.cfg.keyBytesMax + 1 := by omega
  refine ⟨_, (Effect.expand hk h4).exec_eq, fun key hlen hread => ?_, rfl, rfl, ⟨rfl, fun _ => rfl⟩,
    ⟨rfl, fun _ => rfl⟩, ⟨rfl, rfl, rfl⟩, rfl, expanded_L_length hwf hmax,
    fun n hn => expanded_L_getElem? s hn, (schedule_S_get_last _).symm, _, execExpand_ok _ hk h4, rfl, rfl⟩
  rw [eq_keyBytes hlen hread]
  exact derive_keyBytes s.KEY h4

/-- Settles O29: a legal capacity is at least 4, so a key that is too long has a word. -/
theorem expandErrorsKeepTable : Obligations.ExpandErrorsKeepTable := by
  intro s ⟨hcap, _⟩
  refine ⟨fun hk => ⟨_, (Effect.overflow hk).exec_eq, rfl, rfl⟩, fun hc => ?_, fun ⟨hk, hc⟩ => by omega⟩
  exact ⟨_, (Effect.invalidKey (by omega) (by omega)).exec_eq, rfl, rfl⟩

/-! ### SRD -/

/-- The mask of SRD, bit by bit (rules R111, R172). -/
theorem tableReadMask_eq (s : State) (idx : Nat) :
    tableReadMask s idx = (if s.SV = true then 0 else 2) + if 26 ≤ idx then 4 else 0 := by
  simp [tableReadMask, noTableBit, indexBit, tableIndexBad]

/-- An index in range reads its entry of the table (rule R111). -/
theorem tableRead_of_lt (t : Table) {idx : Nat} (h : idx < 26) : tableRead t idx = t[idx] := by
  rw [tableRead, Vector.getElem?_eq_getElem h]
  rfl

/-- SRD's refusal has the mask as its info word and changes no state (rule R111). -/
theorem srd_refused {s : State} {idx : Nat} (h : s.SV = false ∨ 26 ≤ idx) :
    ∃ t, exec (.srd idx) s = .next t ∧ SameEngine s t ∧
      AnswersError t .invalidInput (BitVec.ofNat 32 (tableReadMask s idx)) :=
  ⟨_, (Effect.srdError idx h).exec_eq, rfl, rfl⟩

/-- Settles O30, by the two preconditions. -/
theorem srdReturnsTableWord : Obligations.SrdReturnsTableWord := by
  refine ⟨fun idx h => ?_, fun s idx => ?_⟩
  · calc (encode (.srd idx)).toNat
      _ = 0x1300 + (BitVec.ofNat 8 idx).toNat := toNat_opcode_append 0x13#8 _
      _ = 0x1300 + idx := by rw [BitVec.toNat_ofNat, Nat.mod_eq_of_lt h]
  · by_cases hidx : idx < 26
    · cases hsv : s.SV with
      | true =>
        refine ⟨_, (Effect.srd idx hsv hidx).exec_eq, rfl, fun _ h => ?_, fun _ h => absurd h (by omega), nofun, nofun⟩
        rw [tableRead_of_lt _ h]
        rfl
      | false =>
        obtain ⟨t, hexec, hsame, herr⟩ := srd_refused (idx := idx) (.inl hsv)
        rw [tableReadMask_eq, hsv, if_neg (Nat.not_le.2 hidx)] at herr
        exact ⟨t, hexec, hsame, nofun, nofun, fun _ _ => herr, fun _ h => absurd h (by omega)⟩
    · have hhigh : 26 ≤ idx := Nat.le_of_not_lt hidx
      obtain ⟨t, hexec, hsame, herr⟩ := srd_refused (s := s) (.inr hhigh)
      rw [tableReadMask_eq, if_pos hhigh] at herr
      refine ⟨t, hexec, hsame, fun _ h => absurd h hidx, fun hsv _ => ?_, fun _ h => absurd h hidx, fun hsv _ => ?_⟩
      · rwa [if_pos hsv] at herr
      · rwa [hsv] at herr

end Sys2Proof.Machine
end

section
/-! The rounds of the cipher (rules R130 to R135): what one round computes, that `decround` and `encround` undo each
other, and so do the loops and the ciphers made of them. -/

namespace Sys2Proof.Machine

/-! ### One round -/

theorem xor32_xor32_left (x y : Word) : xor32 (xor32 x y) x = y := by
  rw [xor32_comm x y, xor32_xor32]

/-- The two entries a round of the cipher reads are neighbours in the table. -/
theorem get_add_one_of_loopIndex {i : Fin 26} (hi : i ∈ loopIndices) :
    ∃ h : i.val + 1 < 26, ∀ S : Table, S.get (i + 1) = S[i.val + 1] := by
  have hlt : ∀ i ∈ loopIndices, i.val + 1 < 26 := by decide
  refine ⟨hlt i hi, fun S => ?_⟩
  have hval : (i + 1).val = i.val + 1 := Fin.val_add_one_of_lt' (hlt i hi)
  simp only [Vector.get_eq_getElem, hval]

/-- Settles O31: each round by its definition with core Lean's rotates, each loop by running its six indices. -/
theorem cipherRoundsInOrder : Obligations.CipherRoundsInOrder := by
  intro S A B
  refine ⟨fun i hi => ?_, encrypt_eq S A B, decrypt_eq S A B⟩
  obtain ⟨hlt, hnext⟩ := get_add_one_of_loopIndex hi
  refine ⟨hlt, ?_, ?_⟩
  · rw [encround, rotl_low5, rotl_low5, hnext]
    rfl
  · rw [decround, rotr_low5, rotr_low5, hnext]
    rfl

section
variable (S : Table)

/-- `decround` takes the words of its round back in the opposite order (rule R133). -/
theorem decround_encround (i : Fin 26) (A B : Word) :
    decround S i (encround S i A B).1 (encround S i A B).2 = (A, B) := by
  simp only [encround, decround, sub32_add32, rotr_rotl, xor32_xor32_left, xor32_xor32]

theorem encround_decround (i : Fin 26) (A B : Word) :
    encround S i (decround S i A B).1 (decround S i A B).2 = (A, B) := by
  simp only [encround, decround, xor32_xor32, rotl_rotr, add32_sub32]
  rw [xor32_comm A, xor32_xor32, rotl_rotr, add32_sub32]

/-! ### The loops -/

/-- The decryption loop runs the rounds of the encryption loop backwards, last round first (rule R134). -/
theorem decLoop_reverse_encLoop (is : List (Fin 26)) (A B : Word) :
    decLoop S is.reverse (encLoop S is A B).1 (encLoop S is A B).2 = (A, B) := by
  induction is generalizing A B with
  | nil => rfl
  | cons i rest ih =>
    simp only [List.reverse_cons, decLoop_append, encLoop, ih]
    exact decround_encround S i A B

theorem encLoop_decLoop_reverse (is : List (Fin 26)) (A B : Word) :
    encLoop S is (decLoop S is.reverse A B).1 (decLoop S is.reverse A B).2 = (A, B) := by
  induction is with
  | nil => rfl
  | cons i rest ih =>
    simp only [List.reverse_cons, decLoop_append, encLoop, decLoop, encround_decround, ih]

/-! ### The ciphers -/

/-- Decryption undoes encryption, whatever the table (rule R135). -/
theorem decrypt_encrypt (A B : Word) : decrypt S (encrypt S A B).1 (encrypt S A B).2 = (A, B) := by
  simp only [encrypt_eq, decrypt_eq, decLoop_reverse_encLoop, sub32_add32]

/-- Encryption undoes decryption, whatever the table (rule R135). -/
theorem encrypt_decrypt (A B : Word) : encrypt S (decrypt S A B).1 (decrypt S A B).2 = (A, B) := by
  simp only [encrypt_eq, decrypt_eq, add32_sub32, encLoop_decLoop_reverse]

end

/-- Settles O32: each cipher has the other as its inverse. -/
theorem encryptDecryptInverse : Obligations.EncryptDecryptInverse := by
  refine fun S => ⟨fun A B => ⟨decrypt_encrypt S A B, encrypt_decrypt S A B⟩, decround_encround S, ?_, ?_⟩
  · exact Function.bijective_iff_has_inverse.2
      ⟨fun p => decrypt S p.1 p.2, fun p => decrypt_encrypt S p.1 p.2, fun p => encrypt_decrypt S p.1 p.2⟩
  · exact Function.bijective_iff_has_inverse.2
      ⟨fun p => encrypt S p.1 p.2, fun p => encrypt_decrypt S p.1 p.2, fun p => decrypt_encrypt S p.1 p.2⟩

end Sys2Proof.Machine
end

section
/-! The entries of the table that the cipher reads (rule R138). -/

namespace Sys2Proof.Machine

/-- The entries of the table that the rounds of these indices read, in order (rule R131). -/
def roundEntries (is : List (Fin 26)) : List (Fin 26) :=
  is.flatMap fun i => [i, i + 1]

theorem roundEntries_cons (i : Fin 26) (rest : List (Fin 26)) :
    roundEntries (i :: rest) = i :: (i + 1) :: roundEntries rest := rfl

variable {S T : Table}

/-! ### No other entry is read -/

theorem encround_congr {i : Fin 26} (hi : S.get i = T.get i) (hi1 : S.get (i + 1) = T.get (i + 1)) (A B : Word) :
    encround S i A B = encround T i A B := by
  simp only [encround, hi, hi1]

theorem encLoop_congr {is : List (Fin 26)} (h : ∀ m ∈ roundEntries is, S.get m = T.get m) (A B : Word) :
    encLoop S is A B = encLoop T is A B := by
  induction is generalizing A B with
  | nil => rfl
  | cons i rest ih =>
    simp only [roundEntries_cons, List.forall_mem_cons] at h
    obtain ⟨hi, hi1, hrest⟩ := h
    simp only [encLoop, encround_congr hi hi1, ih hrest]

theorem encrypt_congr (h : ∀ n : Fin 26, n.val ≤ 12 → S.get n = T.get n) (A B : Word) :
    encrypt S A B = encrypt T A B := by
  have hread : ∀ m ∈ roundEntries loopIndices, m.val ≤ 12 := by decide
  rw [encrypt_eq, encrypt_eq, h 0 (by decide), h 1 (by decide), encLoop_congr fun m hm => h m (hread m hm)]

/-- Tables that encrypt alike decrypt alike: decryption is the inverse (rule R135). -/
theorem decrypt_congr (h : ∀ A B, encrypt S A B = encrypt T A B) (A B : Word) : decrypt S A B = decrypt T A B := by
  have hinv := decrypt_encrypt T (decrypt S A B).1 (decrypt S A B).2
  rw [← h, encrypt_decrypt] at hinv
  exact hinv.symm

/-! ### Each of these entries is read -/

theorem add32_left_cancel {x y z : Word} (h : add32 x y = add32 x z) : y = z :=
  add_left_cancel h

/-- The loop is injective in the words it starts with, since the decryption loop undoes it. -/
theorem encLoop_injective {is : List (Fin 26)} {A B A' B' : Word} (h : encLoop S is A B = encLoop S is A' B') :
    (A, B) = (A', B') := by
  rw [← decLoop_reverse_encLoop S is A B, h, decLoop_reverse_encLoop]

/-- A round of given words depends on both its entries. -/
theorem encround_table_injective {i : Fin 26} {A B : Word} (h : encround S i A B = encround T i A B) :
    S.get i = T.get i ∧ S.get (i + 1) = T.get (i + 1) := by
  obtain ⟨hA, hB⟩ := Prod.mk.inj h
  rw [hA] at hB
  exact ⟨add32_left_cancel hA, add32_left_cancel hB⟩

/-- A round takes B back from its result and its second entry alone, so it depends on B, whatever its first entry. -/
theorem encround_B_injective {i : Fin 26} (hi1 : S.get (i + 1) = T.get (i + 1)) {A B A' B' : Word}
    (h : encround S i A B = encround T i A' B') : B = B' := by
  have hback (X Y : Word) : (decround S i X Y).2 = (decround T i X Y).2 := by simp only [decround, hi1]
  calc B = (decround S i (encround S i A B).1 (encround S i A B).2).2 := by rw [decround_encround]
    _ = (decround T i (encround T i A' B').1 (encround T i A' B').2).2 := by rw [hback, h]
    _ = B' := by rw [decround_encround]

/-- Where the other rounds of the loop read the same entries, the first round's results are equal. -/
theorem encround_eq_of_encLoop_eq {i : Fin 26} {rest : List (Fin 26)}
    (hrest : ∀ m ∈ roundEntries rest, S.get m = T.get m) {A B A' B' : Word}
    (h : encLoop S (i :: rest) A B = encLoop T (i :: rest) A' B') : encround S i A B = encround T i A' B' := by
  simp only [encLoop, encLoop_congr hrest] at h
  exact encLoop_injective h

section
variable {n : Fin 26} (hoff : ∀ m, m ≠ n → S.get m = T.get m)
include hoff

theorem get_eq_of_notMem {l : List (Fin 26)} (hn : n ∉ l) : ∀ m ∈ l, S.get m = T.get m :=
  fun m hm => hoff m fun hmn => hn (hmn ▸ hm)

/-- A loop that reads an entry once depends on it: the rounds before agree, and the rounds after are injective. -/
theorem encLoop_table_injective {is : List (Fin 26)} (hnodup : (roundEntries is).Nodup) (hn : n ∈ roundEntries is)
    {A B : Word} (h : encLoop S is A B = encLoop T is A B) : S.get n = T.get n := by
  induction is generalizing A B with
  | nil => cases hn
  | cons i rest ih =>
    simp only [roundEntries_cons, List.nodup_cons, List.mem_cons, not_or] at hnodup hn
    obtain ⟨⟨-, hi⟩, hi1, hnodup'⟩ := hnodup
    by_cases hlater : n ∈ roundEntries rest
    · have hfirst : encround S i A B = encround T i A B := by
        refine encround_congr (hoff i ?_) (hoff (i + 1) ?_) A B
        · rintro rfl
          exact hi hlater
        · rintro rfl
          exact hi1 hlater
      simp only [encLoop, hfirst] at h
      exact ih hnodup' hlater h
    · obtain ⟨hget, hget1⟩ := encround_table_injective (encround_eq_of_encLoop_eq (get_eq_of_notMem hoff hlater) h)
      rcases hn with rfl | rfl | hmem
      · exact hget
      · exact hget1
      · exact absurd hmem hlater

/-- Tables that differ in one of the entries 0 to 12 alone encrypt no block alike. Entry 1 is read twice, by the
whitening of B and by the first round, and the first round's second word still tells the whitened words apart. -/
theorem encrypt_table_injective (hn : n.val ≤ 12) {A B : Word} (h : encrypt S A B = encrypt T A B) :
    S.get n = T.get n := by
  have hread : ∀ m : Fin 26, 2 ≤ m.val → m.val ≤ 12 → m ∈ roundEntries loopIndices := by decide
  rw [encrypt_eq, encrypt_eq] at h
  obtain rfl | rfl | hloop : n = 0 ∨ n = 1 ∨ 2 ≤ n.val := by omega
  · rw [encLoop_congr (get_eq_of_notMem hoff (by decide))] at h
    exact add32_left_cancel (congrArg Prod.fst (encLoop_injective h))
  · have hround := encround_eq_of_encLoop_eq (get_eq_of_notMem hoff (by decide)) h
    exact add32_left_cancel (encround_B_injective (hoff _ (by decide)) hround)
  · rw [hoff 0 (by omega), hoff 1 (by omega)] at h
    exact encLoop_table_injective hoff (by decide) (hread n hloop hn) h

/-- Such tables decrypt no block alike either: both would encrypt the common result to that block (rule R135). -/
theorem decrypt_table_injective (hn : n.val ≤ 12) {A B : Word} (h : decrypt S A B = decrypt T A B) :
    S.get n = T.get n := by
  have hS := encrypt_decrypt S A B
  rw [h, ← encrypt_decrypt T A B] at hS
  exact encrypt_table_injective hoff hn hS

end

theorem table_get_set (n m : Fin 26) (v : Word) : (S.set n v).get m = if n = m then v else S.get m := by
  have hset : (S.set n v).get m = if n.val = m.val then v else S.get m := Vector.getElem_set n.isLt m.isLt
  simp only [hset, Fin.ext_iff]

/-- Settles O33: the ciphers look at the entries 0 to 12 alone, and a table with one of them changed ciphers every block
differently. -/
theorem cipherReadsExactlyEntries0To12 : Obligations.CipherReadsExactlyEntries0To12 := by
  refine ⟨fun S T h A B => ⟨encrypt_congr h A B, decrypt_congr (encrypt_congr h) A B⟩, fun n hn => ?_⟩
  have hoff : ∀ m, m ≠ n → seedTable.get m = (seedTable.set n (seedTable.get n + 1#32)).get m := fun m hm => by
    rw [table_get_set, if_neg hm.symm]
  have hne : seedTable.get n ≠ (seedTable.set n (seedTable.get n + 1#32)).get n := by
    simp [table_get_set]
  exact ⟨_, _, 0#32, 0#32, hoff, fun h => hne (encrypt_table_injective hoff hn h),
    fun h => hne (decrypt_table_injective hoff hn h)⟩

end Sys2Proof.Machine
end

section
/-! The commands BCLR, BPUSH and BRD (rules R139 to R141). -/

namespace Sys2Proof.Machine

/-- Settles O34: BCLR's effect is BLEN and the response alone, and no index is below a BLEN of 0. -/
theorem bclrEmptiesBlock : Obligations.BclrEmptiesBlock :=
  ⟨rfl, fun _ => ⟨_, Effect.bclr.exec_eq, rfl, fun _ => rfl, rfl, ⟨rfl, fun _ => rfl⟩, ⟨rfl, rfl⟩,
    ⟨rfl, rfl, rfl, rfl, rfl, rfl, rfl⟩, ⟨rfl, rfl, rfl⟩,
    fun idx => ⟨_, (Effect.brdError idx (.inr (Nat.zero_le idx))).exec_eq, rfl⟩⟩⟩

/-- The commands on a block of a wrong length set bit 0 of their info word (rule R172). -/
theorem wrong_length_refused {i : Instr} (hi : i = .enc ∨ i = .dec ∨ i = .rotl ∨ i = .rotr) {s : State}
    (h : s.BLEN ≠ 8) : ∃ u d, exec i s = .next u ∧ AnswersError u .invalidInput d ∧ d.getLsbD 0 = true := by
  rw [← or_assoc] at hi
  rcases hi with hcipher | hrotate
  · have hbit : (BitVec.ofNat 32 (cipherMask s)).getLsbD 0 = true := by
      rw [(cipherMask_bits s).1, decide_eq_false h, Bool.not_false]
    exact ⟨_, _, (Effect.cipherError i hcipher (.inl h)).exec_eq, rfl, hbit⟩
  · exact ⟨_, _, (Effect.rotateError i hrotate h).exec_eq, rfl, rfl⟩

/-- Settles O35: a push below 8 writes its byte, and one from 8 on leaves the length that the commands on the block
refuse. -/
theorem bpushAppendsBlockByte : Obligations.BpushAppendsBlockByte := by
  refine ⟨fun imm8 => toNat_opcode_append 0x21#8 imm8, fun s imm8 hwf => ?_⟩
  have hread := read_blockPushed hwf imm8
  have hblen : (blockPushed s imm8).BLEN = blenPushed s.BLEN := blockPushed_BLEN s imm8
  refine ⟨_, (Effect.bpush imm8).exec_eq, fun hroom => ?_, fun hfull => ?_, rfl, ⟨rfl, fun _ => rfl⟩, ⟨rfl, rfl⟩,
    ⟨rfl, rfl, rfl, rfl, rfl, rfl, rfl⟩, rfl, rfl, rfl⟩
  · exact ⟨hblen.trans (if_pos hroom), (hread s.BLEN).trans (if_pos ⟨hroom, rfl⟩),
      fun a ha => (hread a).trans (if_neg fun hat => ha hat.2)⟩
  · have hnine : (blockPushed s imm8).BLEN = 9 := hblen.trans (if_neg (Nat.not_lt.2 hfull))
    refine ⟨hnine, fun a => (hread a).trans (if_neg fun hat => Nat.not_lt.2 hfull hat.1),
      fun i hi => wrong_length_refused hi ?_⟩
    rw [answered_BLEN, hnine]
    decide

/-- Settles O36, by whether the index names a byte that is loaded. -/
theorem brdReturnsBlockByte : Obligations.BrdReturnsBlockByte := by
  refine ⟨fun idx h => ?_, fun s idx => ?_⟩
  · calc (encode (.brd idx)).toNat
      _ = 0x2200 + (BitVec.ofNat 8 idx).toNat := toNat_opcode_append 0x22#8 _
      _ = 0x2200 + idx := by rw [BitVec.toNat_ofNat, Nat.mod_eq_of_lt h]
  · by_cases hbad : 8 ≤ idx ∨ s.BLEN ≤ idx
    · exact ⟨_, (Effect.brdError idx hbad).exec_eq, rfl, fun h8 hlt => absurd hbad (by omega), fun _ => rfl⟩
    · exact ⟨_, (Effect.brd idx (by omega) (by omega)).exec_eq, rfl,
        fun _ _ => ⟨_, rfl, BitVec.toNat_setWidth_of_le (by decide)⟩, fun h => absurd h hbad⟩

end Sys2Proof.Machine
end

section
/-! The commands ENC and DEC (rules R142, R143). They differ in their cipher alone, so what they do to the block is
proved once, for a command whose cipher the other one's undoes. -/

namespace Sys2Proof.Machine

/-- After storing A and B, bytes 0 to 3 are A's and bytes 4 to 7 are B's (rule R43). -/
theorem bytes_storeAB {m : Memory} (h : m.wf) (x y : Word) :
    ((storeAB m x y).read 0, (storeAB m x y).read 1, (storeAB m x y).read 2, (storeAB m x y).read 3) = bytes4 x ∧
    ((storeAB m x y).read 4, (storeAB m x y).read 5, (storeAB m x y).read 6, (storeAB m x y).read 7) = bytes4 y := by
  simp only [read_storeAB h x y, Nat.reduceLT]
  exact ⟨rfl, rfl⟩

/-- The words of a block are the words last stored there (rule R43). -/
theorem read32_storeAB {m : Memory} (h : m.wf) (x y : Word) :
    (storeAB m x y).read32 0 = x ∧ (storeAB m x y).read32 4 = y := by
  simp only [Memory.read32, read_storeAB h x y, Nat.reduceAdd, Nat.reduceLT]
  exact ⟨be32_bytes4 x, be32_bytes4 y⟩

/-- Storing the first words A and B again restores the block. -/
theorem storeAB_storeAB_read32 {m : Memory} (h : m.wf) (x y : Word) :
    storeAB (storeAB m x y) (m.read32 0) (m.read32 4) = m := by
  have hxy := wf_storeAB m x y h
  refine Memory.ext_read _ _ (wf_storeAB _ _ _ hxy) h fun a => ?_
  by_cases ha : 8 ≤ a
  · rw [read_storeAB_of_le hxy _ _ ha, read_storeAB_of_le h x y ha]
  · rw [read_storeAB hxy _ _ (Nat.lt_of_not_le ha), Memory.read32, Memory.read32, bytes4_be32, bytes4_be32]
    interval_cases a <;> rfl

/-- What ENC and DEC leave alone: the key, the table, the key schedule's registers (assumption 3) and the outside. -/
theorem ciphered_frame (s : State) (n : Fin 26) (p : Word × Word) (r : Response) :
    SameKey s (answered (ciphered s n p) r) ∧ SameTable s (answered (ciphered s n p) r) ∧
    SameSchedule s (answered (ciphered s n p) r) ∧ SameOutside s (answered (ciphered s n p) r) := by
  simp [SameKey, SameTable, SameSchedule, SameOutside]

/-- What R142 and R143 say of a command `op` on a block of 8 bytes with a table: it leaves `cipher` of the block's
words, and its loop index at `last`. -/
def CiphersBlock (op : Instr) (last : Fin 26) (cipher : Table → Word → Word → Word × Word) : Prop :=
  ∀ s : State, s.BLEN = 8 → s.SV = true →
    exec op s = .next (answered (ciphered s last (cipher s.S (blockA s) (blockB s))) (response okCode 0#32))

theorem ciphersBlock_enc : CiphersBlock .enc 11 encrypt :=
  fun _ h8 hv => (Effect.enc h8 hv).exec_eq

theorem ciphersBlock_dec : CiphersBlock .dec 1 decrypt :=
  fun _ h8 hv => (Effect.dec h8 hv).exec_eq

section
variable {op undo : Instr} {last last' : Fin 26} {cipher back : Table → Word → Word → Word × Word}

/-- The second command restores a block over which words were stored that its cipher takes back. -/
theorem CiphersBlock.restores (hundo : CiphersBlock undo last' back) {t : State} (h8 : t.BLEN = 8)
    (hv : t.SV = true) {m : Memory} (hwf : m.wf) {p : Word × Word} (hBLK : t.BLK = storeAB m p.1 p.2)
    (hback : back t.S p.1 p.2 = (m.read32 0, m.read32 4)) :
    ∃ u, exec undo t = .next u ∧ u.BLK = m ∧ u.BLEN = 8 := by
  refine ⟨_, hundo t h8 hv, ?_, h8⟩
  obtain ⟨hA, hB⟩ := read32_storeAB hwf p.1 p.2
  rw [answered_BLK, ciphered_BLK, blockA, blockB, hBLK, hA, hB, hback]
  exact storeAB_storeAB_read32 hwf p.1 p.2

/-- A command that ciphers the block, and another that takes the cipher back, by the words of R142 and R143. -/
theorem CiphersBlock.run (h : CiphersBlock op last cipher) (hundo : CiphersBlock undo last' back)
    (hback : ∀ S A B, back S (cipher S A B).1 (cipher S A B).2 = (A, B)) {s : State} (h8 : s.BLEN = 8)
    (hv : s.SV = true) (hwf : s.BLK.wf) :
    ∃ t, exec op s = .next t ∧
      let p := cipher s.S (be32 (s.BLK.read 0) (s.BLK.read 1) (s.BLK.read 2) (s.BLK.read 3))
        (be32 (s.BLK.read 4) (s.BLK.read 5) (s.BLK.read 6) (s.BLK.read 7))
      (t.A, t.B) = p ∧
      (∃ u, exec undo t = .next u ∧ u.BLK = s.BLK ∧ u.BLEN = 8) ∧
      (t.BLK.read 0, t.BLK.read 1, t.BLK.read 2, t.BLK.read 3) = bytes4 p.1 ∧
      (t.BLK.read 4, t.BLK.read 5, t.BLK.read 6, t.BLK.read 7) = bytes4 p.2 ∧
      (∀ a, 8 ≤ a → t.BLK.read a = s.BLK.read a) ∧
      t.BLEN = 8 ∧ AnswersOK t 0#32 ∧
      SameKey s t ∧ SameTable s t ∧ SameSchedule s t ∧ SameOutside s t := by
  refine ⟨_, h s h8 hv, ?_⟩
  intro p
  have hp : cipher s.S (blockA s) (blockB s) = p := rfl
  rw [hp]
  obtain ⟨hbytesA, hbytesB⟩ := bytes_storeAB hwf p.1 p.2
  refine ⟨rfl, ?_, hbytesA, hbytesB, fun a ha => read_storeAB_of_le hwf p.1 p.2 ha, h8, rfl,
    ciphered_frame s last p _⟩
  exact hundo.restores (t := answered (ciphered s last p) _) h8 hv hwf rfl (hback _ _ _)

end

/-- The mask of ENC and DEC, bit by bit (rules R142, R143, R172). -/
theorem cipherMask_eq (s : State) :
    cipherMask s = (if s.BLEN ≠ 8 then 1 else 0) + if s.SV = false then 2 else 0 := by
  simp only [cipherMask, blockLengthBit, noTableBit, ite_not]
  cases s.SV <;> rfl

/-- The refusal of R142 and R143. -/
theorem cipher_refused {op : Instr} (hop : op = .enc ∨ op = .dec) {s : State} (h : s.BLEN ≠ 8 ∨ s.SV = false) :
    ∃ t, exec op s = .next t ∧ SameEngine s t ∧
      AnswersError t .invalidInput
        (BitVec.ofNat 32 ((if s.BLEN ≠ 8 then 1 else 0) + (if s.SV = false then 2 else 0))) :=
  ⟨_, (Effect.cipherError op hop h).exec_eq, rfl, by rw [← cipherMask_eq]; rfl⟩

/-- Settles O37: ENC puts `encrypt` of the block in its place, which `decrypt` undoes. -/
theorem encEncryptsBlockInPlace : Obligations.EncEncryptsBlockInPlace :=
  ⟨rfl, fun _ => ⟨ciphersBlock_enc.run ciphersBlock_dec decrypt_encrypt, cipher_refused (.inl rfl)⟩⟩

/-- Settles O38: DEC puts `decrypt` of the block in its place, which `encrypt` undoes. -/
theorem decDecryptsBlockInPlace : Obligations.DecDecryptsBlockInPlace :=
  ⟨rfl, fun _ => ⟨ciphersBlock_dec.run ciphersBlock_enc encrypt_decrypt, cipher_refused (.inr rfl)⟩⟩

end Sys2Proof.Machine
end

section
/-! The command STAT (rule R160): its word's fields are read off the word as a number. -/

namespace Sys2Proof.Machine

/-- 0x0100 is the one word that decodes to STAT (rules R61, R63). -/
theorem decode_eq_stat_iff (w : Command) : decode w = .ok .stat ↔ w = 0x0100#16 :=
  ⟨fun h => (encode_of_decode h).symm, fun h => h ▸ decode_encode .stat rfl⟩

section
variable {s : State} (hwf : s.WF)
include hwf

/-- In a state in its ranges the counters fit their fields of the status word (rules R6, R20). -/
theorem State.WF.counters_fit : s.KLEN < 65536 ∧ s.BLEN < 16 := by
  obtain ⟨-, hmax⟩ := hwf.cfg_legal
  have hk := hwf.klen_le
  have hb := hwf.blen_le
  omega

/-- The status word as a number (rule R160). -/
theorem State.WF.toNat_statusWord : (statusWord s).toNat = s.SV.toNat * 2 ^ 24 + s.BLEN * 2 ^ 16 + s.KLEN :=
  Machine.toNat_statusWord s hwf.counters_fit.1 hwf.counters_fit.2

/-- Every field is a quotient and a remainder of that number. -/
theorem State.WF.toNat_extractLsb'_statusWord (start len : Nat) :
    ((statusWord s).extractLsb' start len).toNat =
      (s.SV.toNat * 2 ^ 24 + s.BLEN * 2 ^ 16 + s.KLEN) / 2 ^ start % 2 ^ len := by
  rw [BitVec.extractLsb'_toNat, hwf.toNat_statusWord, Nat.shiftRight_eq_div_pow]

/-- SV is one bit, so nothing is carried above bit 24. -/
theorem State.WF.statusWord_bits_31_25 : (statusWord s).extractLsb' 25 7 = 0#7 := by
  obtain ⟨hk, hb⟩ := hwf.counters_fit
  have hv := s.SV.toNat_lt
  refine BitVec.eq_of_toNat_eq ((hwf.toNat_extractLsb'_statusWord 25 7).trans ?_)
  simp only [BitVec.toNat_ofNat]
  omega

/-- The two counters together stay below SV's bit. -/
theorem State.WF.statusWord_bit_24 : (statusWord s).getLsbD 24 = s.SV := by
  obtain ⟨hk, hb⟩ := hwf.counters_fit
  rw [BitVec.getLsbD, hwf.toNat_statusWord, Nat.testBit_eq_decide_div_mod_eq]
  cases s.SV
  · exact decide_eq_false (by simp only [Bool.toNat_false]; omega)
  · exact decide_eq_true (by simp only [Bool.toNat_true]; omega)

/-- BLEN needs four bits of its byte. -/
theorem State.WF.statusWord_bits_23_20 : (statusWord s).extractLsb' 20 4 = 0#4 := by
  obtain ⟨hk, hb⟩ := hwf.counters_fit
  refine BitVec.eq_of_toNat_eq ((hwf.toNat_extractLsb'_statusWord 20 4).trans ?_)
  simp only [BitVec.toNat_ofNat]
  omega

/-- KLEN stays below BLEN's field. -/
theorem State.WF.statusWord_bits_19_16 : ((statusWord s).extractLsb' 16 4).toNat = s.BLEN := by
  obtain ⟨hk, hb⟩ := hwf.counters_fit
  rw [hwf.toNat_extractLsb'_statusWord]
  omega

/-- KLEN fills its half of the word, the overflow value KEY_BYTES_MAX + 1 included (rule R27). -/
theorem State.WF.statusWord_bits_15_0 : ((statusWord s).extractLsb' 0 16).toNat = s.KLEN := by
  obtain ⟨hk, hb⟩ := hwf.counters_fit
  rw [extractLsb'_statusWord s hk hb, BitVec.toNat_ofNat, Nat.mod_eq_of_lt hk]

end

/-- Settles O39: STAT's effect is its response alone, and each field of the word is its counter. -/
theorem statReportsCounters : Obligations.StatReportsCounters :=
  ⟨fun w _ => decode_eq_stat_iff w, ⟨_, Effect.stat.exec_eq, rfl⟩, fun _ hwf =>
    ⟨_, _, Effect.stat.exec_eq, rfl, rfl, hwf.toNat_statusWord, hwf.statusWord_bits_31_25, hwf.statusWord_bit_24,
      hwf.statusWord_bits_23_20, hwf.statusWord_bits_19_16, hwf.statusWord_bits_15_0⟩⟩

end Sys2Proof.Machine
end

section
/-! An error response changes no state (rule R170): a command that fails only puts its response on the port, and the
conditions under which it fails do not look at the port. -/

namespace Sys2Proof.Machine

/-- A command that does not answer OK leaves the state but for its response, and whatever stands on the port before, it
is the same one (rule R170; assumption 10). -/
theorem Effect.error_repeats {s t : State} {i : Instr} {r : Response} (he : Effect s i t) (hrsp : t.rsp = some r)
    (herr : responseCode r ≠ okCode) : t = answered s r ∧ ∀ r', Effect (answered s r') i t := by
  cases he <;> obtain rfl := Option.some.inj hrsp
  case overflow h => exact ⟨rfl, fun _ => .overflow h⟩
  case invalidKey h h4 => exact ⟨rfl, fun _ => .invalidKey h h4⟩
  case cipherError h hi => exact ⟨rfl, fun _ => .cipherError i hi h⟩
  case rotateError h hi => exact ⟨rfl, fun _ => .rotateError i hi h⟩
  case srdError idx h => exact ⟨rfl, fun _ => .srdError idx h⟩
  case brdError idx h => exact ⟨rfl, fun _ => .brdError idx h⟩
  all_goals exact absurd (responseCode_response okCode _) herr

/-- Settles O47: a word that decodes fails as its command does, and any other word is answered by IllegalCommand in
every state. -/
theorem errorChangesNoState : Obligations.ErrorChangesNoState := by
  intro w s t r hrun hrsp herr
  rcases runWord_cases w s with ⟨i, hdec, hexec⟩ | ⟨e, hdec, -⟩
  · obtain ⟨rfl, hrepeat⟩ := (exec_effect i s t (hexec.symm.trans hrun)).error_repeats hrsp herr
    exact ⟨rfl, (runWord_of_decode hdec _).trans (hrepeat r).exec_eq⟩
  · obtain rfl := next_unique (runWord_of_illegal hdec s) hrun
    exact ⟨rfl, runWord_of_illegal hdec _⟩

end Sys2Proof.Machine
end

section
/-! Reset (rules R190 to R192): it clears the counters, SV and the port, and every command that looks at what it leaves
in storage tests one of these first. -/

namespace Sys2Proof.Machine

variable (s : State)

/-- With KLEN, BLEN and SV cleared no storage is visible, so the capacity and the host's side are all a host can tell
apart (rules R30, R31, R190). -/
theorem resetEngine_sameVisible_reset :
    (resetEngine s).SameVisible { State.reset with cfg := s.cfg, host := s.host, taken := s.taken } where
  cfg := rfl
  klen := rfl
  blen := rfl
  sv := rfl
  key n hn := absurd hn (Nat.not_lt_zero n)
  blk n hn := absurd hn (Nat.not_lt_zero n)
  table hv := nomatch hv
  rsp := rfl
  host := rfl
  taken := rfl

/-- Settles O50: a reset pulse is `resetEngine`, which writes the two counters, SV and the port alone. -/
theorem resetMoveReachesResetState : Obligations.ResetMoveReachesResetState := by
  refine ⟨⟨rfl, rfl, rfl, rfl⟩, fun s rest hhost => ?_⟩
  exact ⟨_, step_reset hhost, rfl, rfl, rfl, rfl, rfl, rfl, rfl, fun _ => rfl, fun _ => rfl, rfl,
    ⟨rfl, rfl, rfl, rfl, rfl, rfl, rfl⟩, resetEngine_sameVisible_reset { s with host := rest }⟩

/-- ENC and DEC after reset miss both the block and the table (rules R142, R143). -/
theorem cipher_refused_after_reset {op : Instr} (hop : op = .enc ∨ op = .dec) :
    ∃ t, exec op (resetEngine s) = .next t ∧ AnswersError t .invalidInput 3#32 := by
  obtain ⟨t, hexec, -, herr⟩ := cipher_refused hop (s := resetEngine s) (.inr rfl)
  exact ⟨t, hexec, herr⟩

/-- ROTL and ROTR after reset miss the block (rules R87, R88). -/
theorem rotate_refused_after_reset {op : Instr} (hop : op = .rotl ∨ op = .rotr) :
    ∃ t, exec op (resetEngine s) = .next t ∧ AnswersError t .invalidInput 1#32 := by
  obtain ⟨t, hexec, herr, -⟩ := rotate_refused hop (s := resetEngine s) (by simp)
  exact ⟨t, hexec, herr⟩

/-- STAT after reset reports zero in every field (rule R160). -/
theorem statusWord_resetEngine : statusWord (resetEngine s) = 0#32 := by
  simp [statusWord]

/-- Settles O51: STAT reports the cleared values, and each of the others finds KLEN, BLEN or SV cleared and refuses. -/
theorem nothingReachableAfterReset : Obligations.NothingReachableAfterReset := fun s =>
  ⟨⟨_, Effect.stat.exec_eq, congrArg (some <| response okCode ·) (statusWord_resetEngine s)⟩,
    cipher_refused_after_reset s (.inl rfl), cipher_refused_after_reset s (.inr rfl),
    rotate_refused_after_reset s (.inl rfl), rotate_refused_after_reset s (.inr rfl),
    ⟨_, (Effect.invalidKey (Nat.zero_ne_add_one _) (Nat.zero_lt_succ 3)).exec_eq, rfl⟩,
    fun idx => ⟨_, _, (Effect.srdError idx (.inl rfl)).exec_eq, rfl⟩,
    fun idx => ⟨_, (Effect.brdError idx (.inr (Nat.zero_le idx))).exec_eq, rfl⟩⟩

end Sys2Proof.Machine
end

section
/-! The two hazards of the buffers: the table does not follow the key buffer (rule R195), and the block buffer keeps its
length after a command on the block (rule R196). -/

namespace Sys2Proof.Machine

/-- KCLR, KPUSH and EXPAND do not touch the block buffer (rules R108 to R110). -/
theorem Effect.keyCommand_keeps_block {s t : State} {i : Instr} (he : Effect s i t)
    (hi : i = .kclr ∨ (∃ imm8, i = .kpush imm8) ∨ i = .expand) : t.BLK = s.BLK ∧ t.BLEN = s.BLEN := by
  cases he with
  | kclr | kpush | overflow | invalidKey | expand => exact ⟨rfl, rfl⟩
  | cipherError _ hop | rotateError _ hop => rcases hop with rfl | rfl <;> simp at hi
  | _ => simp at hi

/-- Settles O52: of the commands only an EXPAND that succeeds writes the table, so ENC reads the table and the block of
before. -/
theorem tableDoesNotFollowKeyBuffer : Obligations.TableDoesNotFollowKeyBuffer := by
  intro s i hv h8 hi
  obtain ⟨t, hexec⟩ := exec_next i s
  have he := exec_effect i s t hexec
  have hsame : SameTable s t := by
    rcases he.table_writers with hsame | ⟨rfl, h4, hmax, -⟩
    · exact hsame
    · rcases hi with hkclr | ⟨imm8, hkpush⟩ | ⟨-, hshort | hlong⟩
      · exact nomatch hkclr
      · exact nomatch hkpush
      · exact absurd h4 (Nat.not_le.2 hshort)
      · exact absurd hlong hmax
  have ⟨hS, hSV⟩ := hsame
  obtain ⟨hBLK, hBLEN⟩ := he.keyCommand_keeps_block (hi.imp_right (Or.imp_right And.left))
  refine ⟨t, _, hexec, hsame, ciphersBlock_enc t (hBLEN.trans h8) (hSV.trans hv), ?_, rfl⟩
  rw [answered_A, answered_B, ciphered_A, ciphered_B, blockA, blockB, hS, hBLK]

/-- A BPUSH onto a block of 8 bytes is dropped, and ENC then misses the length alone (rules R140, R196). -/
theorem bpush_dropped_then_enc_refused {t : State} (h8 : t.BLEN = 8) (hv : t.SV = true) (imm8 : Byte) :
    ∃ u v, exec (.bpush imm8) t = .next u ∧ u.BLEN = 9 ∧ SameBlockBytes t u ∧
      exec .enc u = .next v ∧ AnswersError v .invalidInput 1#32 := by
  have hfull : ¬ t.BLEN < 8 := by omega
  have hblen : (blockPushed t imm8).BLEN = 9 := if_neg hfull
  have hblk : (blockPushed t imm8).BLK = t.BLK := if_neg hfull
  obtain ⟨v, henc, -, herr⟩ := cipher_refused (.inl rfl)
    (s := answered (blockPushed t imm8) (response okCode (BitVec.ofNat 32 (blenPushed t.BLEN))))
    (.inl (by rw [answered_BLEN, hblen]; decide))
  refine ⟨_, v, (Effect.bpush imm8).exec_eq, hblen, fun a => congrArg (·.read a) hblk, henc, ?_⟩
  rwa [answered_BLEN, answered_SV, hblen, blockPushed_SV, hv] at herr

/-- Settles O53: of the commands only BCLR and BPUSH write BLEN, so a command on the block leaves it full. -/
theorem blockBufferKeepsItsLength : Obligations.BlockBufferKeepsItsLength := by
  intro s i imm8 h8 hv hi
  obtain ⟨t, hexec⟩ := exec_next i s
  have he := exec_effect i s t hexec
  have hBLEN : t.BLEN = s.BLEN := by
    rcases he.blen_writers with heq | ⟨rfl, -⟩ | ⟨_, rfl, -⟩
    · exact heq
    · simp at hi
    · simp at hi
  have hSV : t.SV = s.SV := by
    rcases he.table_writers with ⟨-, heq⟩ | ⟨rfl, -⟩
    · exact heq
    · simp at hi
  obtain ⟨u, v, hpush⟩ := bpush_dropped_then_enc_refused (hBLEN.trans h8) (hSV.trans hv) imm8
  exact ⟨t, u, v, hexec, hBLEN.trans h8, hpush⟩

end Sys2Proof.Machine
end
